-- ==== Sys2Proof/Word.lean ====
section
/-! DEFINITION. The two word types of the hardware: the 32-bit pattern of every register and memory
word, and the byte of the code store. -/

namespace Sys2Proof

/-- A 32-bit pattern (`XLEN` = 32, spec/00_scope.md R6, R7). -/
abbrev Word := BitVec 32

/-- A byte of the code store (spec/20_memory.md R55), and one cell of the model's data memory. -/
abbrev Byte := BitVec 8

end Sys2Proof
end

