-- ==== Sys2Proof/Config.lean ====
section
/-! DEFINITION. What an implementation fixes and the spec leaves OPEN: the depth of the call stack.
The parameters for which the spec gives a value stand in Machine/Parameters.lean. -/

namespace Sys2Proof

/-- How many entries beyond the first the call stack can hold. It has no body, so nothing can be
proved about its value: "Maximum depth is implementation-defined" (spec/10_state.md R34,
spec/92_eei_decisions.md D10; log 10). -/
opaque Config.callStackExtra : Nat

/-- `CALL_STACK_MAX`, "a model argument, at least 1" (spec/00_scope.md R6): every number from 1 on is
`callStackExtra + 1` for one value of the open constant. -/
def Config.callStackMax : Nat := Config.callStackExtra + 1

/-- The two readings of the skip table, `COND_TABLE` (spec/92_eei_decisions.md D13):
as the source's table writes it, or as the names of the conditions say. -/
inductive Config.CondTable where
  | asWritten
  | byName
deriving DecidableEq, Repr

end Sys2Proof
end

