-- ==== Sys2Proof/Syntax.lean ====
section
/-! DEFINITION. The instructions, as the decoder hands them to the machine: the record of
spec/00_scope.md R12 and spec/30_encoding.md R73, one constructor of `Instr` per row of
spec/opcode_table.json. -/

namespace Sys2Proof

/-- A register index: "A register index is a 4-bit number, so every value ... names a register"
(spec/10_state.md R21). -/
abbrev Reg := Fin 16

/-- The seven conditions (spec/30_encoding.md R79). -/
inductive Cond where
  | al
  | eq
  | ne
  | gt
  | lt
  | gte
  | lte
deriving DecidableEq, Repr

/-- The sixteen opcodes (spec/30_encoding.md R80). -/
inductive Opcode where
  | mov
  | add
  | sub
  | rsb
  | mul
  | div
  | and
  | xor
  | orr
  | lsl
  | lsr
  | cmp
  | ldm
  | stm
  | call
  | ret
deriving DecidableEq, Repr

/-- "`DataProcessing | DataTransfer | Branching`" (spec/30_encoding.md R74). -/
inductive Mode where
  | dataProcessing
  | dataTransfer
  | branching
deriving DecidableEq, Repr

/-- The two readings of bits 11..0, chosen by the I flag (spec/30_encoding.md R72): a register index
`ops2`, or the expanded 32-bit immediate `value`. -/
inductive Src2 where
  | reg (ops2 : Reg)
  | imm (value : Word)
deriving DecidableEq, Repr

/-- The fields of the instruction record (spec/30_encoding.md R73) beside its opcode. -/
structure Fields where
  cond  : Cond
  sFlag : Bool
  dst   : Reg
  ops1  : Reg
  src   : Src2
deriving DecidableEq, Repr

/-- The record's field `immediate`. -/
def Fields.immediate (f : Fields) : Bool :=
  match f.src with
  | .reg _ => false
  | .imm _ => true

/-- The record's field `ops2`, 0 when the I flag is set (spec/30_encoding.md R73). -/
def Fields.ops2 (f : Fields) : Reg :=
  match f.src with
  | .reg r => r
  | .imm _ => 0

/-- The record's field `value`, 0 when the I flag is clear (spec/30_encoding.md R73). -/
def Fields.value (f : Fields) : Word :=
  match f.src with
  | .reg _ => 0
  | .imm v => v

/-- The instruction set: one constructor per row of spec/opcode_table.json. -/
inductive Instr where
  | mov  (f : Fields)
  | add  (f : Fields)
  | sub  (f : Fields)
  | rsb  (f : Fields)
  | mul  (f : Fields)
  | div  (f : Fields)
  | and  (f : Fields)
  | xor  (f : Fields)
  | orr  (f : Fields)
  | lsl  (f : Fields)
  | lsr  (f : Fields)
  | cmp  (f : Fields)
  | ldm  (f : Fields)
  | stm  (f : Fields)
  | call (f : Fields)
  | ret  (f : Fields)
deriving DecidableEq, Repr

/-- The record's field `op`. -/
def Instr.op : Instr → Opcode
  | .mov _  => .mov
  | .add _  => .add
  | .sub _  => .sub
  | .rsb _  => .rsb
  | .mul _  => .mul
  | .div _  => .div
  | .and _  => .and
  | .xor _  => .xor
  | .orr _  => .orr
  | .lsl _  => .lsl
  | .lsr _  => .lsr
  | .cmp _  => .cmp
  | .ldm _  => .ldm
  | .stm _  => .stm
  | .call _ => .call
  | .ret _  => .ret

/-- The fields an instruction carries. -/
def Instr.fields : Instr → Fields
  | .mov f  => f
  | .add f  => f
  | .sub f  => f
  | .rsb f  => f
  | .mul f  => f
  | .div f  => f
  | .and f  => f
  | .xor f  => f
  | .orr f  => f
  | .lsl f  => f
  | .lsr f  => f
  | .cmp f  => f
  | .ldm f  => f
  | .stm f  => f
  | .call f => f
  | .ret f  => f

/-- The instruction with a given opcode and fields. -/
def Instr.make (op : Opcode) (f : Fields) : Instr :=
  match op with
  | .mov  => .mov f
  | .add  => .add f
  | .sub  => .sub f
  | .rsb  => .rsb f
  | .mul  => .mul f
  | .div  => .div f
  | .and  => .and f
  | .xor  => .xor f
  | .orr  => .orr f
  | .lsl  => .lsl f
  | .lsr  => .lsr f
  | .cmp  => .cmp f
  | .ldm  => .ldm f
  | .stm  => .stm f
  | .call => .call f
  | .ret  => .ret f

end Sys2Proof
end

