-- ==== Sys2Proof/WellFormed.lean ====
section
/-! DEFINITION. Which instructions are words of the hardware (`wellFormed`), and which of those are the
ones the assembler writes (`canonical`). -/

namespace Sys2Proof

/-- "An integer is *encodable* iff some `rot ∈ [0,15]` brings it into `[0,255]` after a 2·rot left
rotation" (spec/30_encoding.md R77). -/
def encodable (v : Word) : Bool :=
  (List.range 16).any fun i => decide ((v.rotateLeft (2 * i)).toNat ≤ 255)

/-- An operand a word can hold: any register index, or an encodable constant. -/
def Src2.wellFormed : Src2 → Bool
  | .reg _ => true
  | .imm v => encodable v

/-- The instructions that some word decodes to: the immediate is encodable, and a `call` has its I
flag set (spec/30_encoding.md R76, R92). -/
def Instr.wellFormed (i : Instr) : Bool :=
  i.fields.src.wellFormed &&
    match i with
    | .call f => f.immediate
    | _ => true

/-- A register operand alone in bits 11..0 is 0 where `Ops2` is unused, and `Ops1` is 0 where the
immediate takes its place: `mov`, `ldm`, `stm` (spec/30_encoding.md R81). -/
def Fields.oneSourceCanonical (f : Fields) : Bool :=
  match f.src with
  | .reg r => r == 0
  | .imm _ => f.ops1 == 0

/-- Every field that spec/30_encoding.md R81 calls unused is 0, and the I flag of `cmp` and `ret` is
clear: the condition under which spec/30_encoding.md R84 states the round trip as an equality. -/
def Instr.unusedZero : Instr → Bool
  | .mov f  => f.oneSourceCanonical
  | .add _  => true
  | .sub _  => true
  | .rsb _  => true
  | .mul _  => true
  | .div _  => true
  | .and _  => true
  | .xor _  => true
  | .orr _  => true
  | .lsl _  => true
  | .lsr _  => true
  | .cmp f  => f.src == .reg 0
  | .ldm f  => f.oneSourceCanonical
  | .stm f  => f.oneSourceCanonical
  | .call f => f.dst == 0 && f.ops1 == 0
  | .ret f  => f.dst == 0 && f.ops1 == 0 && f.src == .reg 0

/-- The records the assembler writes (spec/30_encoding.md R83, R84). -/
def Instr.canonical (i : Instr) : Bool := i.wellFormed && i.unusedZero

end Sys2Proof
end

