-- ==== Sys2Proof/Decode.lean ====
section
/-! DEFINITION. The decoder IDEC (spec/30_encoding.md R70 to R76, R90 to R96), total on any word and any
bytes and rejecting by name, and after it the encoder (R77, R83). -/

namespace Sys2Proof

/-! ### The numbers of conditions and opcodes -/

/-- `CONDMAP`, the spec's own numbering (spec/30_encoding.md R79; log 6). -/
def Cond.number : Cond → BitVec 4
  | .al  => 0
  | .eq  => 1
  | .ne  => 2
  | .gt  => 3
  | .lt  => 4
  | .gte => 5
  | .lte => 6

/-- `OPMAP`, the spec's own numbering (spec/30_encoding.md R80; log 6). -/
def Opcode.number : Opcode → BitVec 4
  | .mov  => 0
  | .add  => 1
  | .sub  => 2
  | .rsb  => 3
  | .mul  => 4
  | .div  => 5
  | .and  => 6
  | .xor  => 7
  | .orr  => 8
  | .lsl  => 9
  | .lsr  => 10
  | .cmp  => 11
  | .ldm  => 12
  | .stm  => 13
  | .call => 14
  | .ret  => 15

/-- All seven conditions. -/
def Cond.all : List Cond := [.al, .eq, .ne, .gt, .lt, .gte, .lte]

/-- All sixteen opcodes. -/
def Opcode.all : List Opcode :=
  [.mov, .add, .sub, .rsb, .mul, .div, .and, .xor, .orr, .lsl, .lsr, .cmp, .ldm, .stm, .call, .ret]

/-- The condition with a given number, if the number is not reserved (spec/30_encoding.md R91). -/
def Cond.ofNumber (n : BitVec 4) : Option Cond := Cond.all.find? fun c => c.number == n

/-- The opcode with a given number. Under `OPMAP` every number has one; the `none` of another
numbering is what spec/30_encoding.md R96 asks a model to keep. -/
def Opcode.ofNumber (n : BitVec 4) : Option Opcode := Opcode.all.find? fun o => o.number == n

/-- "Derived from op" (spec/30_encoding.md R74). -/
def Opcode.mode : Opcode → Mode
  | .mov  => .dataProcessing
  | .add  => .dataProcessing
  | .sub  => .dataProcessing
  | .rsb  => .dataProcessing
  | .mul  => .dataProcessing
  | .div  => .dataProcessing
  | .and  => .dataProcessing
  | .xor  => .dataProcessing
  | .orr  => .dataProcessing
  | .lsl  => .dataProcessing
  | .lsr  => .dataProcessing
  | .cmp  => .dataProcessing
  | .ldm  => .dataTransfer
  | .stm  => .dataTransfer
  | .call => .branching
  | .ret  => .branching

/-! ### Decoding -/

/-- Why bytes are no instruction. -/
inductive DecodeError where
  /-- `W[31:28] > 6` (spec/30_encoding.md R91). -/
  | reservedCondition (number : BitVec 4)
  /-- An opcode number without an instruction: none under `OPMAP` (spec/30_encoding.md R96). -/
  | unassignedOpcode (number : BitVec 4)
  /-- `call` with I=0 (spec/30_encoding.md R92). -/
  | callWithoutImmediate
  /-- Fewer than the four bytes of a slot (spec/30_encoding.md R70). -/
  | truncated
deriving DecidableEq, Repr

/-- The register index in the four bits of `w` from `lo` up. -/
def regField (w : Word) (lo : Nat) : Reg := ⟨(w.extractLsb' lo 4).toNat, (w.extractLsb' lo 4).isLt⟩

/-- "the represented 32-bit constant equals `val` rotated right by `2 × rot` positions"
(spec/30_encoding.md R75). -/
def expandImmediate (rot : BitVec 4) (val : BitVec 8) : Word :=
  (val.setWidth 32).rotateRight (2 * rot.toNat)

/-- Bits 11..0, read by the I flag (spec/30_encoding.md R72). -/
def decodeSrc2 (w : Word) : Src2 :=
  if w.getLsbD 24 then .imm (expandImmediate (w.extractLsb' 8 4) (w.extractLsb' 0 8))
  else .reg (regField w 8)

/-- The record's fields in `w`, under a condition already read. Bits 26..25, and bits 7..0 with I=0,
are not read (spec/30_encoding.md R90, R94). -/
def decodeFields (cond : Cond) (w : Word) : Fields where
  cond := cond
  sFlag := w.getLsbD 27
  dst := regField w 16
  ops1 := regField w 12
  src := decodeSrc2 w

/-- `decode(W)` of spec/30_encoding.md R73; an error is its `Invalid`. -/
def decodeWord (w : Word) : Except DecodeError Instr :=
  match Cond.ofNumber (w.extractLsb' 28 4) with
  | none => .error (.reservedCondition (w.extractLsb' 28 4))
  | some cond =>
    match Opcode.ofNumber (w.extractLsb' 20 4) with
    | none => .error (.unassignedOpcode (w.extractLsb' 20 4))
    | some op =>
      if op = .call ∧ w.getLsbD 24 = false then .error .callWithoutImmediate
      else .ok (Instr.make op (decodeFields cond w))

/-- The big-endian reading of the four bytes of a slot (spec/20_memory.md R56). -/
def wordOfBytes (b0 b1 b2 b3 : Byte) : Word := b0 ++ b1 ++ b2 ++ b3

/-- Decoding a byte stream: the instruction in its first four bytes, and the bytes after them. -/
def decode : List Byte → Except DecodeError (Instr × List Byte)
  | b0 :: b1 :: b2 :: b3 :: rest =>
    match decodeWord (wordOfBytes b0 b1 b2 b3) with
    | .ok i => .ok (i, rest)
    | .error e => .error e
  | _ => .error .truncated

/-! ### Encoding -/

/-- `encodeImmediate(v)`: "enumerate rotations `i ∈ [0,15]`, accept the first that lands `n` in
`[0,255]`"; `none` is the failure `UnencodableConstant` (spec/30_encoding.md R77). -/
def encodeImmediate (v : Word) : Option (BitVec 4 × BitVec 8) :=
  (List.range 16).findSome? fun i =>
    if (v.rotateLeft (2 * i)).toNat ≤ 255 then
      some (BitVec.ofNat 4 i, (v.rotateLeft (2 * i)).setWidth 8)
    else none

/-- The instruction with 0 in every field that spec/30_encoding.md R81 calls unused. -/
def Instr.canonicalize : Instr → Instr
  | .mov f  => .mov (oneSource f)
  | .add f  => .add f
  | .sub f  => .sub f
  | .rsb f  => .rsb f
  | .mul f  => .mul f
  | .div f  => .div f
  | .and f  => .and f
  | .xor f  => .xor f
  | .orr f  => .orr f
  | .lsl f  => .lsl f
  | .lsr f  => .lsr f
  | .cmp f  => .cmp { f with src := .reg 0 }
  | .ldm f  => .ldm (oneSource f)
  | .stm f  => .stm (oneSource f)
  | .call f => .call { f with dst := 0, ops1 := 0 }
  | .ret f  => .ret { f with dst := 0, ops1 := 0, src := .reg 0 }
where
  /-- `mov`, `ldm`, `stm`: `Ops2` is unused with I=0, `Ops1` with I=1. -/
  oneSource (f : Fields) : Fields :=
    match f.src with
    | .reg _ => { f with src := .reg 0 }
    | .imm _ => { f with ops1 := 0 }

/-- A register index as the four bits of its field. -/
def regBits (r : Reg) : BitVec 4 := BitVec.ofNat 4 r.val

/-- Bits 11..0 of an operand (spec/30_encoding.md R83). -/
def encodeSrc2 : Src2 → Option (BitVec 12)
  | .reg r => some (regBits r ++ 0#8)
  | .imm v => (encodeImmediate v).map fun p => p.1 ++ p.2

/-- The word with given fields, bits 26..25 written as 0 (spec/30_encoding.md R71, R83). -/
def packWord (cond : BitVec 4) (s i : Bool) (op dst ops1 : BitVec 4) (low : BitVec 12) : Word :=
  cond ++ BitVec.ofBool s ++ 0#2 ++ BitVec.ofBool i ++ op ++ dst ++ ops1 ++ low

/-- The word of opcode `op` with fields `f`, each written as it stands. -/
def encodeFields (op : Opcode) (f : Fields) : Option Word :=
  (encodeSrc2 f.src).map fun low =>
    packWord f.cond.number f.sFlag f.immediate op.number (regBits f.dst) (regBits f.ops1) low

/-- `encode(r)` of spec/30_encoding.md R83, as a word: every unused field is written as 0; `none`
when an immediate the instruction uses is not encodable. R83 both calls `encodeImmediate` for every record with
an immediate and writes 0 for the unused immediate of `cmp` and `ret`: the zeros come first here, so that
such an immediate never fails (DESIGN CHOICE, log 13). -/
def encodeWord (i : Instr) : Option Word := encodeFields i.op i.canonicalize.fields

/-- The four bytes of a word, most significant first (spec/30_encoding.md R83). -/
def bytesOfWord (w : Word) : List Byte :=
  [w.extractLsb' 24 8, w.extractLsb' 16 8, w.extractLsb' 8 8, w.extractLsb' 0 8]

/-- `encode(r)` of spec/30_encoding.md R83: the bytes the assembler emits. -/
def encode (i : Instr) : Option (List Byte) := (encodeWord i).map bytesOfWord

/-! ### The host's reading of the opcode table -/

/-- What the decoder reads from an instruction whose bits are `w`, numbered from the least
significant bit of its one word; bits from `nbits` up are 0. -/
def decodeTableWord (nbits w : Nat) : Option Instr :=
  match decode (bytesOfWord (BitVec.ofNat 32 (w % 2 ^ nbits))) with
  | .ok (i, _) => some i
  | .error _ => none

end Sys2Proof
end

