-- ==== Sys2Proof/Machine/Parameters.lean ====
section
/-! DEFINITION. The parameters of spec/00_scope.md R6 for which the spec gives a value: each stands here
once, and nothing else in the model repeats its number. `OPMAP` and `CONDMAP` stand in Decode.lean.
`DIV0` has one value only, the fatal error, and is `execDiv`'s rule. -/

namespace Sys2Proof

/-- `STACK_SIZE`, the number of words of data memory; "unaudited literal, keep as parameter"
(spec/00_scope.md R6, spec/10_state.md R36; UNVERIFIED, log 5). -/
def Config.stackSize : Nat := 1024

/-- `SP_RESET` = `STACK_SIZE − 1` (spec/00_scope.md R6, spec/10_state.md R38). -/
def Config.spReset : Word := BitVec.ofNat 32 (Config.stackSize - 1)

/-- `RESET_GPR`, the reset value of R0 to R12 and R14 (spec/10_state.md R38, the spec's decision D9;
DESIGN CHOICE, log 3). -/
def Config.resetGpr : Word := 0

/-- What a byte of data memory that nothing has written reads as: `RESET_MEM` = 0 byte by byte
(spec/10_state.md R38, the spec's decision D9; DESIGN CHOICE, log 3). -/
def Config.resetMemByte : Byte := 0

/-- `COND_TABLE`: the skip table as the source writes it (spec/40_step_and_condition.md R115, the
spec's decision D13; DESIGN CHOICE, log 7). -/
def Config.condTable : Config.CondTable := .asWritten

/-- `SHIFT_GE_XLEN`, the result of `lsl` and `lsr` by 32 or more (spec/41_data_processing.md R150,
R151, the spec's decision D12; DESIGN CHOICE, log 9). -/
def Config.shiftGeXlen : Word := 0

end Sys2Proof
end

