-- ==== Sys2Proof/Machine/State.lean ====
section
/-! DEFINITION. The state of the machine as plain data: everything spec/10_state.md R20 lists, and the
code store the run is given. The reasons a step can stop, and the state after reset. -/

namespace Sys2Proof.Machine

/-- The run-time errors with the information each carries (spec/60_exceptions.md R200, R201). They are
no stops of the model: an instruction that raises one answers a next state whose `status` holds it. -/
inductive RunError where
  /-- A reserved encoding met in phase D; carries the word `W`. -/
  | invalidOpcode (w : Word)
  /-- `div` with a zero second source; carries the mnemonic. -/
  | divisionByZero (op : Opcode)
  /-- `ldm` or `stm` at an address not below `STACK_SIZE`; carries the mnemonic and the address. -/
  | memoryOutOfRange (op : Opcode) (addr : Word)
  /-- `call` with `CALL_STACK_MAX` entries held; carries the mnemonic. -/
  | callStackOverflow (op : Opcode)
  /-- A name the source lists and nothing raises (spec/90_conflicts.md C3; log 24). -/
  | callStackUnderflow (op : Opcode)
deriving DecidableEq, Repr

/-- The run status (spec/10_state.md R33). -/
inductive Status where
  | running
  /-- The program counter reached or passed the end of the code. -/
  | haltedEnd
  /-- `ret` was executed with an empty call stack. -/
  | haltedRet
  /-- A run-time error ended the run. -/
  | faulted (e : RunError)
deriving DecidableEq, Repr

/-- Data memory as (address, byte) cells: the word at index `a` is the cells `4a` to `4a+3`, most
significant byte first (DESIGN CHOICE, log 20: no access narrower than a word exists, so no
instruction can observe the order). -/
abbrev Memory := List Host.Cell

/-- The canonical form: addresses strictly rising and inside the `STACK_SIZE` words, and no cell that
holds what an unlisted address reads as, so that equal memories are equal lists. -/
abbrev Memory.wf (m : Memory) : Prop :=
  m.Pairwise (fun x y => x.1 < y.1) ∧
    ∀ c ∈ m, c.1 < 4 * Config.stackSize ∧ c.2 ≠ Config.resetMemByte

/-- The machine's state (spec/10_state.md R20), with the code store of the run. -/
structure State where
  /-- `R[0..15]`; R13 is the stack pointer, R14 the link register, R15 the program counter, all of
  them ordinary registers (spec/10_state.md R21 to R23, R27). -/
  regs : Vector Word 16
  /-- The condition word (spec/10_state.md R30). -/
  cv : Word
  /-- The call stack `CS`, its most recent entry first (spec/10_state.md R34; log 21). -/
  callStack : List Word
  /-- The run status (spec/10_state.md R33). -/
  status : Status
  /-- The data memory `MEM` (spec/10_state.md R36). -/
  mem : Memory
  /-- The code store `CODE`, the byte sequence given to `exec` (spec/10_state.md R37; log 1). -/
  code : List Byte
deriving DecidableEq, Repr

/-- Faults of a step: the machine stops. -/
inductive Fault where
  /-- Raised by `step` (Machine/Fetch.lean) in a state whose run a run-time error has already ended:
  "Once `status` is not `Running` there is no further step" (spec/60_exceptions.md R207). Safe: the
  hardware has no further step either. -/
  | trapped (e : RunError)
deriving DecidableEq, Repr

/-- Refusals of a step. -/
inductive Refusal where
  /-- Raised by an arm of `exec` whose instruction has no meaning yet. Safe. No arm raises it. -/
  | notModelled (mnemonic : String)
  /-- Raised by `step` (Machine/Fetch.lean) in a state whose run ended normally: "Only `Running` has a
  next step" (spec/10_state.md R33). Safe: the hardware has no further step either. -/
  | runOver
  /-- Raised by `step` (Machine/Fetch.lean) when the code length is not a multiple of 4: "a run with any
  other length is refused before the first step" (spec/20_memory.md R55; log 16). Safe. -/
  | codeLength
deriving DecidableEq, Repr

/-- The machine right after reset, `new` (spec/10_state.md R38, spec/70_reset_and_hazards.md R230), no
program given yet: R13 at `SP_RESET`, R15 at slot 0, the other registers at `RESET_GPR`. -/
def State.reset : State where
  regs := ((Vector.replicate 16 Config.resetGpr).set 13 Config.spReset).set 15 0
  cv := 0
  callStack := []
  status := .running
  mem := []
  code := []

end Sys2Proof.Machine
end

