-- ==== Sys2Proof/Machine/Ops.lean ====
section
/-! DEFINITION. The named operations over the state: registers and program counter, data memory, the
call stack, taking a run-time error and ending the run, the update of phase P. -/

namespace Sys2Proof.Machine

/-! ### Registers (RFA, spec/10_state.md R21 to R29) -/

/-- `R[i]` (spec/00_scope.md R8). -/
def State.reg (s : State) (r : Reg) : Word := s.regs[r]

/-- `R[i] <- v` (spec/00_scope.md R8). No register is hardwired (spec/10_state.md R23). -/
def State.setReg (s : State) (r : Reg) (v : Word) : State := { s with regs := s.regs.set r v }

/-- R13, the stack pointer by convention (spec/10_state.md R22). -/
def spReg : Reg := 13

/-- R15, the program counter (spec/10_state.md R27). -/
def pcReg : Reg := 15

/-- `pc`, another name for `R[15]` (spec/00_scope.md R8). -/
def State.pc (s : State) : Word := s.reg pcReg

/-! ### Data memory (MEM, spec/20_memory.md R50 to R54) -/

/-- The cell at a byte address; an unlisted address reads as the reset value. -/
def Memory.readByte : Memory → Nat → Byte
  | [], _ => Config.resetMemByte
  | (k, b) :: rest, a => if k = a then b else Memory.readByte rest a

/-- The cell at a byte address replaced, in canonical form: writing what an unlisted address reads as
removes the entry. -/
def Memory.writeByte : Memory → Nat → Byte → Memory
  | [], a, b => if b = Config.resetMemByte then [] else [(a, b)]
  | (k, c) :: rest, a, b =>
    if a < k then if b = Config.resetMemByte then (k, c) :: rest else (a, b) :: (k, c) :: rest
    else if a = k then if b = Config.resetMemByte then rest else (a, b) :: rest
    else (k, c) :: Memory.writeByte rest a b

/-- The word at a word index, whole (spec/20_memory.md R51, R53). -/
def Memory.readWord (m : Memory) (a : Nat) : Word :=
  wordOfBytes (m.readByte (4 * a)) (m.readByte (4 * a + 1)) (m.readByte (4 * a + 2))
    (m.readByte (4 * a + 3))

/-- All four cells of a word replaced. -/
def Memory.writeWord (m : Memory) (a : Nat) (v : Word) : Memory :=
  (((m.writeByte (4 * a) (v.extractLsb' 24 8)).writeByte (4 * a + 1) (v.extractLsb' 16 8)).writeByte
    (4 * a + 2) (v.extractLsb' 8 8)).writeByte (4 * a + 3) (v.extractLsb' 0 8)

/-- The range check of every access: `a < STACK_SIZE`, "with `a` taken as an unsigned 32-bit value"
(spec/20_memory.md R52; log 15). -/
def inRange (a : Word) : Bool := decide (a.toNat < Config.stackSize)

/-- `MemRead(a, 1)`; `none` is the range error (spec/00_scope.md R8, spec/20_memory.md R52). -/
def State.memRead (s : State) (a : Word) : Option Word :=
  if inRange a then some (s.mem.readWord a.toNat) else none

/-- `MemWrite(a, 1, v)`; `none` is the range error, and then "the access is not made"
(spec/00_scope.md R8, spec/20_memory.md R52). -/
def State.memWrite (s : State) (a v : Word) : Option State :=
  if inRange a then some { s with mem := s.mem.writeWord a.toNat v } else none

/-! ### The call stack (spec/10_state.md R34) -/

/-- `CS.len ≥ CALL_STACK_MAX` (spec/43_branching.md R181). -/
def State.callStackFull (s : State) : Bool := decide (Config.callStackMax ≤ s.callStack.length)

/-- `CS.push(v)`. -/
def State.pushCall (s : State) (v : Word) : State := { s with callStack := v :: s.callStack }

/-- `CS.pop()` with the state after it; `none` when the call stack is empty. -/
def State.popCall (s : State) : Option (Word × State) :=
  match s.callStack with
  | [] => none
  | v :: rest => some (v, { s with callStack := rest })

/-! ### Ends of the run

There is no return from a run-time error and no nesting (spec/60_exceptions.md R207), so nothing stands
beside `State.raise`. -/

/-- `raise E(info)`: the status takes the error and nothing else changes, "Nothing is saved anywhere,
no mode changes, no vector is fetched" (spec/60_exceptions.md R206; log 14, log 22). -/
def State.raise (s : State) (e : RunError) : State := { s with status := .faulted e }

/-- `halt(reason)` at the end of the code (spec/60_exceptions.md R203). -/
def State.haltEnd (s : State) : State := { s with status := .haltedEnd }

/-- `halt(reason)` by a `ret` at top level (spec/60_exceptions.md R203). -/
def State.haltRet (s : State) : State := { s with status := .haltedRet }

/-! ### The program-counter update (PCU, spec/40_step_and_condition.md R125) -/

/-- Phase P: if R15 still equals `branch_base` it becomes the next slot, modulo 2^32. The test compares
values, not "was R15 written". -/
def State.advancePc (s : State) (branchBase : Word) : State :=
  if s.pc = branchBase then s.setReg pcReg (branchBase + 1) else s

/-! ### How phase X ends -/

/-- The five ways phase X can end, the three errors in one (spec/40_step_and_condition.md R119). An
error or a halt carries no state: the instruction has then written nothing (spec/60_exceptions.md R206). -/
inductive Effect where
  | normal (s : State)
  | raised (e : RunError)
  | haltedRet
deriving DecidableEq, Repr

end Sys2Proof.Machine
end

