-- ==== Sys2Proof/Machine/Operands.lean ====
section
/-! DEFINITION. The operand forms: the second source, the source of `mov`, the effective address, the
target of `call`. -/

namespace Sys2Proof.Machine

/-- `src2 = if immediate then value else R[ops2]` (spec/41_data_processing.md R140). -/
def State.src2 (s : State) (f : Fields) : Word :=
  match f.src with
  | .reg r => s.reg r
  | .imm v => v

/-- `if immediate then value else R[ops1]`: the source of `mov` (spec/41_data_processing.md R141) and
the effective address of `ldm` and `stm` (spec/42_data_transfer.md R170). The register is `Ops1`. -/
def State.src1 (s : State) (f : Fields) : Word :=
  match f.src with
  | .reg _ => s.reg f.ops1
  | .imm v => v

end Sys2Proof.Machine
end

