-- ==== Sys2Proof/Machine/Flags.lean ====
section
/-! DEFINITION. The condition word: the evaluator CCE and the latch SFL
(spec/40_step_and_condition.md R114 to R122). -/

namespace Sys2Proof.Machine

/-- The skip decision under a given `COND_TABLE`, with `c = signed(cv)` read in two's complement
(spec/40_step_and_condition.md R115, R116; log 7, log 23). As the source writes the table, LTE skips
when `c < 0` and GTE when `c > 0`. -/
def skipsBy (table : Config.CondTable) (cond : Cond) (cv : Word) : Bool :=
  match cond with
  | .al => false
  | .eq => decide (cv.toInt ≠ 0)
  | .ne => decide (cv.toInt = 0)
  | .lt => decide (0 ≤ cv.toInt)
  | .gt => decide (cv.toInt ≤ 0)
  | .lte =>
    match table with
    | .asWritten => decide (cv.toInt < 0)
    | .byName => decide (0 < cv.toInt)
  | .gte =>
    match table with
    | .asWritten => decide (0 < cv.toInt)
    | .byName => decide (cv.toInt < 0)

/-- `skip`, computed in phase C (spec/40_step_and_condition.md R115). -/
def skips (cond : Cond) (cv : Word) : Bool := skipsBy Config.condTable cond cv

/-- `cv <- v`. -/
def State.setCv (s : State) (v : Word) : State := { s with cv := v }

/-- The clear of phase C: "Then reset `cv := 0`" (spec/40_step_and_condition.md R117). -/
def State.clearCv (s : State) : State := s.setCv 0

/-- The difference `cmp` writes, kept modulo 2^32 (spec/41_data_processing.md R152; log 11). -/
def cmpDifference (a b : Word) : Word := a - b

/-- Phase L: `cv <- R[dst]` for a DataProcessing or DataTransfer instruction with the S flag
(spec/40_step_and_condition.md R120, spec/30_encoding.md R95). -/
def State.latch (s : State) (mode : Mode) (f : Fields) : State :=
  match mode with
  | .branching => s
  | .dataProcessing => if f.sFlag then s.setCv (s.reg f.dst) else s
  | .dataTransfer => if f.sFlag then s.setCv (s.reg f.dst) else s

end Sys2Proof.Machine
end

