-- ==== Sys2Proof/Machine/Phases.lean ====
section
/-! DEFINITION. The phases C, X, L and P every instruction shares (spec/40_step_and_condition.md R110,
R127): each instruction's meaning is this frame around its own phase X. -/

namespace Sys2Proof.Machine

/-- Phases L and P after phase X, given the state `s` that phase C left
(spec/40_step_and_condition.md R120 to R125). An error or a halt ends the step there. -/
def finish (mode : Mode) (f : Fields) (branchBase : Word) (s : State) : Effect → State
  | .normal t => (t.latch mode f).advancePc branchBase
  | .raised e => s.raise e
  | .haltedRet => s.haltRet

/-- Phases C, X, L, P of the instruction `op` with fields `f`, whose phase X is `x`. `branch_base` is
the value of R15 at the start (spec/40_step_and_condition.md R124); a skipped instruction only clears
`cv` and advances R15 (R118). -/
def runPhases (op : Opcode) (f : Fields) (x : State → Effect) (s : State) :
    Host.Outcome State Fault Refusal :=
  if skips f.cond s.cv then .next (s.clearCv.advancePc s.pc)
  else .next (finish op.mode f s.pc s.clearCv (x s.clearCv))

end Sys2Proof.Machine
end

