-- ==== Sys2Proof/Machine/Branching.lean ====
section
/-! DEFINITION. The two instructions of mode Branching (spec/43_branching.md). -/

namespace Sys2Proof.Machine

/-- Phase X of `call`: the check, the push of `branch_base + 1`, the write of the target to R15. In
phase X R15 still holds `branch_base` (spec/40_step_and_condition.md R124; R181). A `call` the
decoder hands over has an immediate (spec/30_encoding.md R92). -/
def effectCall (f : Fields) (s : State) : Effect :=
  if s.callStackFull then .raised (.callStackOverflow .call)
  else .normal ((s.pushCall (s.pc + 1)).setReg pcReg f.value)

/-- Phase X of `ret`: end the run on an empty call stack, else pop to R15 (R182; log 24). -/
def effectRet (s : State) : Effect :=
  match s.popCall with
  | none => .haltedRet
  | some (v, t) => .normal (t.setReg pcReg v)

/-- `call`: call a subroutine at an absolute slot (R181). -/
def execCall (f : Fields) (s : State) : Host.Outcome State Fault Refusal :=
  runPhases .call f (effectCall f) s

/-- `ret`: return from a subroutine, or end the program (R182). -/
def execRet (f : Fields) (s : State) : Host.Outcome State Fault Refusal :=
  runPhases .ret f effectRet s

end Sys2Proof.Machine
end

