-- ==== Sys2Proof/Machine/DataProcessing.lean ====
section
/-! DEFINITION. The twelve instructions of mode DataProcessing (spec/41_data_processing.md). -/

namespace Sys2Proof.Machine

/-! ### The arithmetic, on 32-bit patterns modulo 2^32 (spec/41_data_processing.md R153) -/

/-- `(a + src2) mod 2^32` (R142). -/
def aluAdd (a b : Word) : Word := a + b

/-- `(a − src2) mod 2^32` (R143). -/
def aluSub (a b : Word) : Word := a - b

/-- `(src2 − a) mod 2^32` (R144). -/
def aluRsb (a b : Word) : Word := b - a

/-- `(a × src2) mod 2^32` (R145). -/
def aluMul (a b : Word) : Word := a * b

/-- `floor(a / src2)`, unsigned, for `src2 ≠ 0` (R146). -/
def aluDiv (a b : Word) : Word := BitVec.ofNat 32 (a.toNat / b.toNat)

/-- Bit by bit (R147). -/
def aluAnd (a b : Word) : Word := a &&& b

/-- Bit by bit (R148). -/
def aluXor (a b : Word) : Word := a ^^^ b

/-- Bit by bit (R149). -/
def aluOrr (a b : Word) : Word := a ||| b

/-- `if n ≥ 32 then 0 else (a × 2^n) mod 2^32`, `n` "the whole 32-bit unsigned value, not reduced" (R150). -/
def aluLsl (a n : Word) : Word :=
  if 32 ≤ n.toNat then Config.shiftGeXlen else BitVec.ofNat 32 (a.toNat * 2 ^ n.toNat)

/-- `if n ≥ 32 then 0 else floor(a / 2^n)`, `a` unsigned (R151). -/
def aluLsr (a n : Word) : Word :=
  if 32 ≤ n.toNat then Config.shiftGeXlen else BitVec.ofNat 32 (a.toNat / 2 ^ n.toNat)

/-! ### Phase X of the families -/

/-- `R[dst] <- g(a, src2)`, sources read before the write (spec/41_data_processing.md R140, R156). -/
def writeAlu (g : Word → Word → Word) (f : Fields) (s : State) : Effect :=
  .normal (s.setReg f.dst (g (s.reg f.ops1) (s.src2 f)))

/-- Phase X of `mov` (R141). -/
def effectMov (f : Fields) (s : State) : Effect := .normal (s.setReg f.dst (s.src1 f))

/-- Phase X of `div`: the error comes before any write (R146; log 8). -/
def effectDiv (f : Fields) (s : State) : Effect :=
  if s.src2 f = 0 then .raised (.divisionByZero .div) else writeAlu aluDiv f s

/-- Phase X of `cmp`: the difference of `R[dst]` and `R[ops1]`; the I flag and bits 11..0 are not read
(R152; log 13). -/
def effectCmp (f : Fields) (s : State) : Effect :=
  .normal (s.setCv (cmpDifference (s.reg f.dst) (s.reg f.ops1)))

/-! ### The meanings -/

/-- `mov`: copy a register or an immediate (R141). -/
def execMov (f : Fields) (s : State) : Host.Outcome State Fault Refusal :=
  runPhases .mov f (effectMov f) s

/-- `add`: 32-bit addition (R142). -/
def execAdd (f : Fields) (s : State) : Host.Outcome State Fault Refusal :=
  runPhases .add f (writeAlu aluAdd f) s

/-- `sub`: first source minus second (R143). -/
def execSub (f : Fields) (s : State) : Host.Outcome State Fault Refusal :=
  runPhases .sub f (writeAlu aluSub f) s

/-- `rsb`: second source minus first (R144). -/
def execRsb (f : Fields) (s : State) : Host.Outcome State Fault Refusal :=
  runPhases .rsb f (writeAlu aluRsb f) s

/-- `mul`: the low half of the product (R145). -/
def execMul (f : Fields) (s : State) : Host.Outcome State Fault Refusal :=
  runPhases .mul f (writeAlu aluMul f) s

/-- `div`: unsigned division (R146). -/
def execDiv (f : Fields) (s : State) : Host.Outcome State Fault Refusal :=
  runPhases .div f (effectDiv f) s

/-- `and`: bitwise AND (R147). -/
def execAnd (f : Fields) (s : State) : Host.Outcome State Fault Refusal :=
  runPhases .and f (writeAlu aluAnd f) s

/-- `xor`: bitwise exclusive OR (R148). -/
def execXor (f : Fields) (s : State) : Host.Outcome State Fault Refusal :=
  runPhases .xor f (writeAlu aluXor f) s

/-- `orr`: bitwise inclusive OR (R149). -/
def execOrr (f : Fields) (s : State) : Host.Outcome State Fault Refusal :=
  runPhases .orr f (writeAlu aluOrr f) s

/-- `lsl`: logical shift left (R150). -/
def execLsl (f : Fields) (s : State) : Host.Outcome State Fault Refusal :=
  runPhases .lsl f (writeAlu aluLsl f) s

/-- `lsr`: logical shift right, zero fill (R151). -/
def execLsr (f : Fields) (s : State) : Host.Outcome State Fault Refusal :=
  runPhases .lsr f (writeAlu aluLsr f) s

/-- `cmp`: compare two registers into the condition word (R152). -/
def execCmp (f : Fields) (s : State) : Host.Outcome State Fault Refusal :=
  runPhases .cmp f (effectCmp f) s

end Sys2Proof.Machine
end

