-- ==== Sys2Proof/Machine/DataTransfer.lean ====
section
/-! DEFINITION. The two instructions of mode DataTransfer (spec/42_data_transfer.md). -/

namespace Sys2Proof.Machine

/-- Phase X of `ldm`: `R[dst] <- MemRead(addr, 1)`, the address read before the write (R171). -/
def effectLdm (f : Fields) (s : State) : Effect :=
  match s.memRead (s.src1 f) with
  | some v => .normal (s.setReg f.dst v)
  | none => .raised (.memoryOutOfRange .ldm (s.src1 f))

/-- Phase X of `stm`: `MemWrite(addr, 1, R[dst])` (R172). -/
def effectStm (f : Fields) (s : State) : Effect :=
  match s.memWrite (s.src1 f) (s.reg f.dst) with
  | some t => .normal t
  | none => .raised (.memoryOutOfRange .stm (s.src1 f))

/-- `ldm`: load one word from memory (R171). -/
def execLdm (f : Fields) (s : State) : Host.Outcome State Fault Refusal :=
  runPhases .ldm f (effectLdm f) s

/-- `stm`: store one word to memory (R172). -/
def execStm (f : Fields) (s : State) : Host.Outcome State Fault Refusal :=
  runPhases .stm f (effectStm f) s

end Sys2Proof.Machine
end

