-- ==== Sys2Proof/Machine/Dispatch.lean ====
section
/-! DEFINITION. The dispatch of phase X on the opcode (spec/40_step_and_condition.md R119), one arm per
instruction. -/

namespace Sys2Proof.Machine

def exec (i : Instr) (s : State) : Host.Outcome State Fault Refusal :=
  match i with
  | .mov f => Sys2Proof.Machine.execMov f s
  | .add f => Sys2Proof.Machine.execAdd f s
  | .sub f => Sys2Proof.Machine.execSub f s
  | .rsb f => Sys2Proof.Machine.execRsb f s
  | .mul f => Sys2Proof.Machine.execMul f s
  | .div f => Sys2Proof.Machine.execDiv f s
  | .and f => Sys2Proof.Machine.execAnd f s
  | .xor f => Sys2Proof.Machine.execXor f s
  | .orr f => Sys2Proof.Machine.execOrr f s
  | .lsl f => Sys2Proof.Machine.execLsl f s
  | .lsr f => Sys2Proof.Machine.execLsr f s
  | .cmp f => Sys2Proof.Machine.execCmp f s
  | .ldm f => Sys2Proof.Machine.execLdm f s
  | .stm f => Sys2Proof.Machine.execStm f s
  | .call f => Sys2Proof.Machine.execCall f s
  | .ret f => Sys2Proof.Machine.execRet f s

end Sys2Proof.Machine
end

