-- ==== Sys2Proof/Machine/Fetch.lean ====
section
/-! DEFINITION. Phases F and D (spec/40_step_and_condition.md R111 to R113): the code store, the fetch at
R15, decoding, and placing an instruction where the next fetch finds it. -/

namespace Sys2Proof.Machine

/-- `NSLOT = len(code)/4` (spec/20_memory.md R55). -/
def State.nslot (s : State) : Nat := s.code.length / 4

/-- `CodeWord(s)`, the big-endian reading of the four bytes of a slot. The byte position `4 × slot` is
not reduced modulo 2^32 (spec/20_memory.md R56; log 15). Phase F reads slots below `NSLOT` only, whose
four bytes are all there. -/
def codeWord (code : List Byte) (slot : Nat) : Word :=
  wordOfBytes (code.getD (4 * slot) 0) (code.getD (4 * slot + 1) 0) (code.getD (4 * slot + 2) 0)
    (code.getD (4 * slot + 3) 0)

/-- What phases F and D find: an instruction to run, or the end of the step. -/
inductive Fetched where
  | instr (i : Instr)
  | ended (o : Host.Outcome State Fault Refusal)
deriving Repr

/-- Phase D: decode the word, or `raise InvalidOpcode(W)`, before the condition is looked at and with
`cv` kept (spec/40_step_and_condition.md R113; log 14, log 17). -/
def decodePhase (s : State) (w : Word) : Fetched :=
  match decodeWord w with
  | .ok i => .instr i
  | .error _ => .ended (.next (s.raise (.invalidOpcode w)))

/-- Phase F: "if `s ≥ NSLOT`, the status becomes `HaltedEnd`, and no other state changes"; otherwise
fetch and decode (spec/40_step_and_condition.md R111). -/
def fetchPhase (s : State) : Fetched :=
  if s.nslot ≤ s.pc.toNat then .ended (.next s.haltEnd)
  else decodePhase s (codeWord s.code s.pc.toNat)

/-- Only `Running` has a next step (spec/10_state.md R33, spec/60_exceptions.md R207; log 22), and only
with a code length that is a multiple of 4 (spec/20_memory.md R55; log 16). -/
def fetchInstr (s : State) : Fetched :=
  match s.status with
  | .faulted e => .ended (.fault (.trapped e))
  | .haltedEnd => .ended (.refused .runOver)
  | .haltedRet => .ended (.refused .runOver)
  | .running => if s.code.length % 4 = 0 then fetchPhase s else .ended (.refused .codeLength)

/-- The code store with a word in a given slot, grown with zero bytes if it is too short and cut to
whole slots. -/
def placeWord (code : List Byte) (slot : Nat) (w : Word) : List Byte :=
  (code ++ List.replicate (4 * slot) 0).take (4 * slot) ++ bytesOfWord w ++
    (code.take (4 * (code.length / 4))).drop (4 * slot + 4)

/-- The state with a word in the slot R15 names and a run in progress; it stands for the host's
loading of a program (log 2). -/
def State.placeAtPc (s : State) (w : Word) : State :=
  { s with code := placeWord s.code s.pc.toNat w, status := .running }

end Sys2Proof.Machine
end

