-- ==== Sys2Proof/Machine/Step.lean ====
section
/-! DEFINITION. One step of the machine (spec/40_step_and_condition.md R127), and the host's way to put
an instruction where the next step fetches it. -/

namespace Sys2Proof.Machine

/-- Phases F and D, then phases C, X, L, P of the instruction they find. -/
def step (s : State) : Host.Outcome State Fault Refusal :=
  match fetchInstr s with
  | .instr i => exec i s
  | .ended o => o

/-- The state with the instruction whose bits are `w` (from bit `nbits` up 0) in the slot R15 names, so
that the next step fetches and runs it (log 2). -/
def State.withFetchWord (s : State) (nbits w : Nat) : State :=
  s.placeAtPc (BitVec.ofNat 32 (w % 2 ^ nbits))

end Sys2Proof.Machine
end

