-- ==== Sys2Proof/Machine/Pseudo.lean ====
section
/-! DEFINITION. The two pseudo-instructions as the real instructions the assembler writes for them
(spec/44_pseudo_instructions.md). "The hardware never sees them". -/

namespace Sys2Proof.Machine

/-- The fields both halves share: condition AL, S clear. -/
def plainFields (dst ops1 : Reg) (src : Src2) : Fields where
  cond := .al
  sFlag := false
  dst := dst
  ops1 := ops1
  src := src

/-- `push rD` "→ `sub SP, SP, #1` then `stm rD, SP`" (R190). -/
def pushExpansion (d : Reg) : List Instr :=
  [.sub (plainFields spReg spReg (.imm 1)), .stm (plainFields d spReg (.reg 0))]

/-- `pop rD` "→ `ldm rD, SP` then `add SP, SP, #1`" (R191). -/
def popExpansion (d : Reg) : List Instr :=
  [.ldm (plainFields d spReg (.reg 0)), .add (plainFields spReg spReg (.imm 1))]

end Sys2Proof.Machine
end

