-- ==== Sys2Proof/Machine/Assembler.lean ====
section
/-! DEFINITION. The assembler's input syntax and output words (spec/30_encoding.md R97 to R102): a pure
function from source text to the bytes of the code store. It is not part of the hardware and no step
calls it; it says which words a program in assembly text holds (log 18). -/

namespace Sys2Proof.Machine

/-- Source text, character by character. -/
abbrev Text := List Char

/-- The assembler's errors, all fatal (spec/60_exceptions.md R202). What the texts they carry hold is the
model's choice where the spec does not say (DESIGN CHOICE, log 18). -/
inductive AsmError where
  | arityMismatch (op : Text) (want got : Nat)
  | expectedRegister (op operand : Text)
  | unknownMnemonic (text : Text)
  | unknownLabel (name : Text)
  | unencodableConstant (value : Word)
  | malformedOperand (text : Text)
deriving DecidableEq, Repr

/-- `f` over a list, stopping at the first error. -/
def mapExcept {α β ε : Type} (f : α → Except ε β) : List α → Except ε (List β)
  | [] => .ok []
  | x :: xs =>
    match f x with
    | .error e => .error e
    | .ok y =>
      match mapExcept f xs with
      | .error e => .error e
      | .ok ys => .ok (y :: ys)

/-! ### Lexical rules (R97) -/

/-- The pieces of a text between the characters that satisfy `p`. -/
def splitAtChars (p : Char → Bool) : Text → List Text
  | [] => [[]]
  | c :: cs =>
    match splitAtChars p cs with
    | [] => [[]]
    | w :: ws => if p c then [] :: w :: ws else (c :: w) :: ws

/-- "Comments: `;` to end of line." -/
def dropComment (line : Text) : Text := line.takeWhile fun c => c != ';'

/-- "Tokens within a line are whitespace-separated (any run of spaces/tabs)." -/
def tokens (line : Text) : List Text :=
  (splitAtChars (fun c => c == ' ' || c == '\t') line).filter fun t => !t.isEmpty

/-- "a single trailing comma on an operand token is accepted and dropped". -/
def dropComma (t : Text) : Text := if t.getLast? = some ',' then t.dropLast else t

/-- A letter of an identifier, or `_` (R100). The spec gives no character set, and the model takes the letters
and digits of ASCII alone (DESIGN CHOICE, log 18). -/
def isLetter (c : Char) : Bool := c.isAlpha || c == '_'

/-- "a letter or `_` followed by letters, digits or `_`" (R100). -/
def isIdentifier : Text → Bool
  | [] => false
  | c :: cs => isLetter c && cs.all fun d => isLetter d || d.isDigit

/-- The value of a string of decimal digits. -/
def decimal (digits : Text) : Nat := digits.foldl (fun n c => 10 * n + (c.toNat - 48)) 0

/-- A non-empty string of decimal digits. -/
def isDecimal (t : Text) : Bool := !t.isEmpty && t.all Char.isDigit

/-- "a decimal integer", a leading `-` accepted (R101). -/
def parseInteger : Text → Option Int
  | '-' :: ds => if isDecimal ds then some (-(decimal ds : Int)) else none
  | ds => if isDecimal ds then some (decimal ds : Int) else none

/-- The sixteen register tokens (R97, spec/92_eei_decisions.md D20). -/
def registerNames : List (Text × Reg) :=
  [(['r', '0'], 0), (['r', '1'], 1), (['r', '2'], 2), (['r', '3'], 3), (['r', '4'], 4),
    (['r', '5'], 5), (['r', '6'], 6), (['r', '7'], 7), (['r', '8'], 8), (['r', '9'], 9),
    (['r', '1', '0'], 10), (['r', '1', '1'], 11), (['r', '1', '2'], 12), (['r', '1', '3'], 13),
    (['r', '1', '4'], 14), (['r', '1', '5'], 15)]

/-- The value a name stands for in a list of names. -/
def lookupText {α : Type} : List (Text × α) → Text → Option α
  | [], _ => none
  | (n, x) :: rest, t => if n = t then some x else lookupText rest t

/-- A parsed operand: one of the three forms of R97. -/
inductive Operand where
  | reg (r : Reg)
  | imm (v : Word)
  | label (name : Text)
deriving DecidableEq, Repr

/-- An operand token: a register, `#` and an integer in −2^31..2^32−1 taken modulo 2^32 (R101), or an
identifier. -/
def parseOperand (token : Text) : Except AsmError Operand :=
  match lookupText registerNames token with
  | some r => .ok (.reg r)
  | none =>
    match token with
    | '#' :: rest =>
      match parseInteger rest with
      | some n =>
        if -2147483648 ≤ n ∧ n ≤ 4294967295 then .ok (.imm (BitVec.ofInt 32 n))
        else .error (.malformedOperand token)
      | none => .error (.malformedOperand token)
    | _ => if isIdentifier token then .ok (.label token) else .error (.malformedOperand token)

/-! ### Mnemonics (R98) -/

/-- A base mnemonic: a real instruction, or one of the two pseudo-instructions. -/
inductive Base where
  | real (op : Opcode)
  | push
  | pop
deriving DecidableEq, Repr

/-- The sixteen mnemonics and the two pseudo-instructions (R80, R99). -/
def baseNames : List (Text × Base) :=
  [("mov".toList, .real .mov), ("add".toList, .real .add), ("sub".toList, .real .sub),
    ("rsb".toList, .real .rsb), ("mul".toList, .real .mul), ("div".toList, .real .div),
    ("and".toList, .real .and), ("xor".toList, .real .xor), ("orr".toList, .real .orr),
    ("lsl".toList, .real .lsl), ("lsr".toList, .real .lsr), ("cmp".toList, .real .cmp),
    ("ldm".toList, .real .ldm), ("stm".toList, .real .stm), ("call".toList, .real .call),
    ("ret".toList, .real .ret), ("push".toList, .push), ("pop".toList, .pop)]

/-- The condition suffixes, "checked longest-first: 3-letter `gte/lte` before 2-letter `gt/lt`". -/
def conditionSuffixes : List (Text × Cond) :=
  [("gte".toList, .gte), ("lte".toList, .lte), ("eq".toList, .eq), ("ne".toList, .ne),
    ("gt".toList, .gt), ("lt".toList, .lt)]

/-- The text before a suffix, if the text ends in it. -/
def stripSuffix (suffix t : Text) : Option Text :=
  if suffix.isSuffixOf t then some (t.take (t.length - suffix.length)) else none

/-- The first of the suffixes a mnemonic ends in, with the text before it. -/
def splitCondition : List (Text × Cond) → Text → Option (Text × Cond)
  | [], _ => none
  | (suffix, c) :: rest, t =>
    match stripSuffix suffix t with
    | some base => some (base, c)
    | none => splitCondition rest t

/-- Base, condition and S flag of a mnemonic: "The trailing `s` flag is recognized only when no condition
suffix matched." -/
def splitMnemonic (t : Text) : Text × Cond × Bool :=
  match splitCondition conditionSuffixes t with
  | some (base, c) => (base, c, false)
  | none =>
    match stripSuffix ['s'] t with
    | some base => (base, .al, true)
    | none => (t, .al, false)

/-! ### Lines -/

/-- A second source before labels are resolved. -/
inductive AsmSrc where
  | reg (r : Reg)
  | imm (v : Word)
  | label (name : Text)
deriving DecidableEq, Repr

/-- A real instruction before labels are resolved. -/
structure AsmInstr where
  op    : Opcode
  cond  : Cond
  sFlag : Bool
  dst   : Reg
  ops1  : Reg
  src   : AsmSrc
deriving DecidableEq, Repr

/-- A line of the source. -/
inductive Line where
  | blank
  | label (name : Text)
  | instrs (is : List AsmInstr)
deriving DecidableEq, Repr

/-- An operand where a register is required: an immediate is `ExpectedRegister` (R99). For a label, for a
token of none of the three forms and for a literal out of range both kinds fit the words of R99 and R101, and
the model answers `MalformedOperand` (DESIGN CHOICE, log 18). -/
def expectReg (mnemonic token : Text) : Except AsmError Reg :=
  match parseOperand token with
  | .ok (.reg r) => .ok r
  | .ok (.imm _) => .error (.expectedRegister mnemonic token)
  | .ok (.label _) => .error (.malformedOperand token)
  | .error e => .error e

/-- An operand where `#imm` is legal: any of the three forms (R99, R100). -/
def parseSource (token : Text) : Except AsmError AsmSrc :=
  match parseOperand token with
  | .ok (.reg r) => .ok (.reg r)
  | .ok (.imm v) => .ok (.imm v)
  | .ok (.label n) => .ok (.label n)
  | .error e => .error e

/-- `mov`, `ldm`, `stm`: `rD rS`, the register in `Ops1`, or `rD #imm` (R99). -/
def parseOneSource (m : Text) (op : Opcode) (c : Cond) (s : Bool) (td ts : Text) :
    Except AsmError AsmInstr :=
  match expectReg m td with
  | .error e => .error e
  | .ok d =>
    match parseSource ts with
    | .error e => .error e
    | .ok (.reg r) => .ok ⟨op, c, s, d, r, .reg 0⟩
    | .ok src => .ok ⟨op, c, s, d, 0, src⟩

/-- The three-operand instructions: `rD rA rB` or `rD rA #imm` (R99). -/
def parseTwoSource (m : Text) (op : Opcode) (c : Cond) (s : Bool) (td ta tb : Text) :
    Except AsmError AsmInstr :=
  match expectReg m td with
  | .error e => .error e
  | .ok d =>
    match expectReg m ta with
    | .error e => .error e
    | .ok a =>
      match parseSource tb with
      | .error e => .error e
      | .ok src => .ok ⟨op, c, s, d, a, src⟩

/-- `cmp rA rB`: "takes two registers only" (R99). -/
def parseCompare (m : Text) (c : Cond) (s : Bool) (ta tb : Text) : Except AsmError AsmInstr :=
  match expectReg m ta with
  | .error e => .error e
  | .ok a =>
    match expectReg m tb with
    | .error e => .error e
    | .ok b => .ok ⟨.cmp, c, s, a, b, .reg 0⟩

/-- `call label`: "takes a label only; `call #n` is `MalformedOperand`" (R99). For a register operand the spec
names no error kind, and the model answers `MalformedOperand` (DESIGN CHOICE, log 18). -/
def parseCall (c : Cond) (s : Bool) (t : Text) : Except AsmError AsmInstr :=
  match parseOperand t with
  | .ok (.label n) => .ok ⟨.call, c, s, 0, 0, .label n⟩
  | .ok (.reg _) => .error (.malformedOperand t)
  | .ok (.imm _) => .error (.malformedOperand t)
  | .error e => .error e

/-- The operand shapes of R99's table. -/
inductive Form where
  | oneSource
  | twoSource
  | compare
  | target
  | bare
deriving DecidableEq, Repr

/-- The row of R99's table a mnemonic stands in. -/
def formOf : Opcode → Form
  | .mov  => .oneSource
  | .add  => .twoSource
  | .sub  => .twoSource
  | .rsb  => .twoSource
  | .mul  => .twoSource
  | .div  => .twoSource
  | .and  => .twoSource
  | .xor  => .twoSource
  | .orr  => .twoSource
  | .lsl  => .twoSource
  | .lsr  => .twoSource
  | .cmp  => .compare
  | .ldm  => .oneSource
  | .stm  => .oneSource
  | .call => .target
  | .ret  => .bare

/-- A real instruction from its operand tokens; a wrong count is `ArityMismatch` (R99). -/
def parseReal (m : Text) (op : Opcode) (c : Cond) (s : Bool) (args : List Text) :
    Except AsmError AsmInstr :=
  match formOf op, args with
  | .oneSource, [d, x] => parseOneSource m op c s d x
  | .oneSource, _ => .error (.arityMismatch m 2 args.length)
  | .twoSource, [d, a, b] => parseTwoSource m op c s d a b
  | .twoSource, _ => .error (.arityMismatch m 3 args.length)
  | .compare, [a, b] => parseCompare m c s a b
  | .compare, _ => .error (.arityMismatch m 2 args.length)
  | .target, [t] => parseCall c s t
  | .target, _ => .error (.arityMismatch m 1 args.length)
  | .bare, [] => .ok ⟨op, c, s, 0, 0, .reg 0⟩
  | .bare, _ => .error (.arityMismatch m 0 args.length)

/-- A real instruction of an expansion, as the assembler holds it. -/
def ofInstr (i : Instr) : AsmInstr where
  op := i.op
  cond := i.fields.cond
  sFlag := i.fields.sFlag
  dst := i.fields.dst
  ops1 := i.fields.ops1
  src :=
    match i.fields.src with
    | .reg r => .reg r
    | .imm v => .imm v

/-- `push rD` and `pop rD`: one register, two instructions; a suffix is `UnknownMnemonic` (R98, R99,
spec/44_pseudo_instructions.md R193). -/
def parsePseudo (m : Text) (expand : Reg → List Instr) (c : Cond) (s : Bool) (args : List Text) :
    Except AsmError (List AsmInstr) :=
  if c = .al ∧ s = false then
    match args with
    | [d] =>
      match expectReg m d with
      | .error e => .error e
      | .ok r => .ok ((expand r).map ofInstr)
    | _ => .error (.arityMismatch m 1 args.length)
  else .error (.unknownMnemonic m)

/-- The instructions of a line that begins with the mnemonic `m`. The errors `ArityMismatch` and
`ExpectedRegister` carry as their `op` the whole token `m`, its suffix included, where the spec does not say
whether it is that or the base mnemonic (DESIGN CHOICE, log 18). -/
def parseInstrs (m : Text) (args : List Text) : Except AsmError (List AsmInstr) :=
  match splitMnemonic m with
  | (base, c, s) =>
    match lookupText baseNames base with
    | none => .error (.unknownMnemonic m)
    | some .push => parsePseudo m pushExpansion c s args
    | some .pop => parsePseudo m popExpansion c s args
    | some (.real op) =>
      match parseReal m op c s args with
      | .error e => .error e
      | .ok i => .ok [i]

/-- A label definition (R97, R100). For a name that is no identifier, the empty one included, the spec names no
error kind, and the model answers `MalformedOperand` (DESIGN CHOICE, log 18). -/
def parseLabel (name : Text) : Except AsmError Line :=
  if isIdentifier name then .ok (.label name) else .error (.malformedOperand name)

/-- A line: blank, a label `name:` "(trailing colon, possibly after whitespace)", or an instruction
(R97). -/
def parseLine (line : Text) : Except AsmError Line :=
  match tokens (dropComment line) with
  | [] => .ok .blank
  | [t] =>
    if t.getLast? = some ':' then parseLabel t.dropLast
    else match parseInstrs t [] with
      | .ok is => .ok (.instrs is)
      | .error e => .error e
  | t :: rest =>
    if rest = [[':']] then parseLabel t
    else match parseInstrs t (rest.map dropComma) with
      | .ok is => .ok (.instrs is)
      | .error e => .error e

/-! ### Labels and output (R100 to R102) -/

/-- The label map of the lines from slot `slot` on, given the labels `seen` before them: each label names the
slot index of the next instruction. A second definition of a name is an error (R100); of several the one
earliest in the source is reported (DESIGN CHOICE, log 18). A label that no instruction follows, for which the
spec gives no slot, is accepted and names the slot count of the code (DESIGN CHOICE, log 18). -/
def labelMap (seen : List (Text × Nat)) : Nat → List Line → Except AsmError (List (Text × Nat))
  | _, [] => .ok seen
  | slot, .blank :: rest => labelMap seen slot rest
  | slot, .instrs is :: rest => labelMap seen (slot + is.length) rest
  | slot, .label n :: rest =>
    if (lookupText seen n).isSome then .error (.malformedOperand n)
    else labelMap ((n, slot) :: seen) slot rest

/-- The instructions of the source in order. -/
def lineInstrs : Line → List AsmInstr
  | .blank => []
  | .label _ => []
  | .instrs is => is

/-- The instruction with its label operand, if any, replaced by the label's slot index (R100). -/
def resolve (labels : List (Text × Nat)) (i : AsmInstr) : Except AsmError Instr :=
  match i.src with
  | .reg r => .ok (Instr.make i.op ⟨i.cond, i.sFlag, i.dst, i.ops1, .reg r⟩)
  | .imm v => .ok (Instr.make i.op ⟨i.cond, i.sFlag, i.dst, i.ops1, .imm v⟩)
  | .label n =>
    match lookupText labels n with
    | some slot => .ok (Instr.make i.op ⟨i.cond, i.sFlag, i.dst, i.ops1, .imm (BitVec.ofNat 32 slot)⟩)
    | none => .error (.unknownLabel n)

/-- The bytes of an instruction; an immediate that is not encodable fails (R77). -/
def emit (i : Instr) : Except AsmError (List Byte) :=
  match encode i with
  | some bs => .ok bs
  | none => .error (.unencodableConstant i.fields.value)

/-- The resolved instructions of a source. -/
def assembleInstrs (source : Text) : Except AsmError (List Instr) :=
  match mapExcept parseLine (splitAtChars (fun c => c == '\n') source) with
  | .error e => .error e
  | .ok ls =>
    match labelMap [] 0 ls with
    | .error e => .error e
    | .ok labels => mapExcept (resolve labels) (ls.flatMap lineInstrs)

/-- `assemble(s)` (R102): parse, resolve, encode; the first error of the first of these that has one. -/
def assemble (source : Text) : Except AsmError (List Byte) :=
  match assembleInstrs source with
  | .error e => .error e
  | .ok is =>
    match mapExcept emit is with
    | .error e => .error e
    | .ok bss => .ok bss.flatten

end Sys2Proof.Machine
end

