-- ==== Sys2Proof/Machine/Run.lean ====
section
/-! DEFINITION. A run: "the repetition of `step` while `status = Running`"
(spec/40_step_and_condition.md R127), and what it answers to the host. -/

namespace Sys2Proof.Machine

/-- At most `fuel` steps, ending where there is no next state. The hardware has no limit on the number
of steps (spec/60_exceptions.md R204); the fuel is the model's (spec/93_implementation_defined.md U24). -/
def runFor : Nat → State → State
  | 0, s => s
  | fuel + 1, s =>
    match step s with
    | .next t => runFor fuel t
    | .fault _ => s
    | .refused _ => s

/-- What `exec` returns: success for the two normal ends, the error for a faulted run, nothing while the
run goes on (spec/70_reset_and_hazards.md R236). -/
def runResult (s : State) : Option (Except RunError Unit) :=
  match s.status with
  | .running => none
  | .haltedEnd => some (.ok ())
  | .haltedRet => some (.ok ())
  | .faulted e => some (.error e)

end Sys2Proof.Machine
end

