-- ==== Sys2Proof/Machine/HostAccess.lean ====
section
/-! DEFINITION. The host interface (spec/20_memory.md R63, spec/70_reset_and_hazards.md R236): `new`,
`set`, `get`, `exec`. No instruction uses these operations and no step calls them. -/

namespace Sys2Proof.Machine

/-- "The `kind` parameter is an enum `{Reg, Mem, Dec, Stack}`" (spec/20_memory.md R63). -/
inductive Kind where
  | reg
  | mem
  | dec
  | stack
deriving DecidableEq, Repr

/-- Why the model refuses a host call; all of them are safe (log 19). -/
inductive HostRefusal where
  /-- `get` or `set` with kind `Stack`, and `set(Dec, ...)`: "the source gives it no meaning". -/
  | noMeaning
  /-- A register number above 15, or a word index not below `STACK_SIZE`. -/
  | locOutOfRange
  /-- The host has no move during a run, no `set` after it and no second `exec`. -/
  | wrongTime
  /-- `exec` with a code length that is not a multiple of 4. -/
  | codeLength
deriving DecidableEq, Repr

/-- The machine as the host holds it: the state, and whether the one `exec` call has been made. The
host's call order is no architectural state (spec/10_state.md R20), so it stands beside `State`; no step
reads or writes it. -/
structure Vm where
  state : State
  execCalled : Bool
deriving DecidableEq, Repr

/-- `new(debug)`: reset. The debug flag "does not change any architectural state"
(spec/60_exceptions.md R217; log 27). -/
def hostNew (_debug : Bool) : Vm := ⟨State.reset, false⟩

/-- The time of `set` and of the one `exec`, whatever code that `exec` will be given. -/
def Vm.beforeExec (vm : Vm) : Bool := !vm.execCalled

/-- A run is in progress: "One `exec` call owns the VM until it returns". -/
def Vm.duringExec (vm : Vm) : Bool := vm.execCalled && decide (vm.state.status = .running)

/-- `get(kind, loc)`. `Dec` answers `loc` "unchanged", at any time (spec/20_memory.md R63). `Reg` and `Mem`
are answered after the run and refused during it (spec/70_reset_and_hazards.md R236). Before `exec` they are
answered too: R236 lists them after `exec` only and says nothing of before (DESIGN CHOICE, log 19). -/
def hostGet (kind : Kind) (loc : Word) (vm : Vm) : Except HostRefusal Word :=
  match kind with
  | .dec => .ok loc
  | .stack => .error .noMeaning
  | .reg =>
    if vm.duringExec then .error .wrongTime
    else if h : loc.toNat < 16 then .ok (vm.state.reg ⟨loc.toNat, h⟩) else .error .locOutOfRange
  | .mem =>
    if vm.duringExec then .error .wrongTime
    else match vm.state.memRead loc with
      | some v => .ok v
      | none => .error .locOutOfRange

/-- `set(kind, loc, value)`, before `exec` (spec/20_memory.md R63, spec/10_state.md R26). -/
def hostSet (kind : Kind) (loc value : Word) (vm : Vm) : Except HostRefusal Vm :=
  match kind with
  | .dec => .error .noMeaning
  | .stack => .error .noMeaning
  | .reg =>
    if vm.beforeExec then
      if h : loc.toNat < 16 then .ok { vm with state := vm.state.setReg ⟨loc.toNat, h⟩ value }
      else .error .locOutOfRange
    else .error .wrongTime
  | .mem =>
    if vm.beforeExec then
      match vm.state.memWrite loc value with
      | some t => .ok { vm with state := t }
      | none => .error .locOutOfRange
    else .error .wrongTime

/-- The start of `exec(code)`, once, the empty code among others: the code is given to the machine, its
length a multiple of 4 (spec/20_memory.md R55, spec/60_exceptions.md R207). A refused call starts no run. -/
def hostLoad (code : List Byte) (vm : Vm) : Except HostRefusal Vm :=
  if vm.beforeExec then
    if code.length % 4 = 0 then .ok ⟨{ vm.state with code := code }, true⟩ else .error .codeLength
  else .error .wrongTime

/-- `exec(code)` under a bound on the number of steps: the machine the run leaves, and what `exec` returns
if the run has ended (spec/70_reset_and_hazards.md R236). -/
def hostExec (fuel : Nat) (code : List Byte) (vm : Vm) :
    Except HostRefusal (Vm × Option (Except RunError Unit)) :=
  match hostLoad code vm with
  | .ok t => .ok ({ t with state := runFor fuel t.state }, runResult (runFor fuel t.state))
  | .error e => .error e

end Sys2Proof.Machine
end

