-- ==== Sys2Proof/Safety.lean ====
section
/-! DEFINITION. What counts as a successful and as a trapped run, and the invariant of the machine. -/

namespace Sys2Proof

/-- "the run ends in `HaltedEnd` or `HaltedRet`" is what success means (spec/60_exceptions.md R208). -/
def Safety.succeeded (s : Machine.State) : Bool :=
  match s.status with
  | .running => false
  | .haltedEnd => true
  | .haltedRet => true
  | .faulted _ => false

/-- "a `Faulted` state is never a successful end state" (spec/60_exceptions.md R208). -/
def Safety.trapped (s : Machine.State) : Bool :=
  match s.status with
  | .running => false
  | .haltedEnd => false
  | .haltedRet => false
  | .faulted _ => true

/-- The error `CallStackUnderflow`, which nothing raises (spec/60_exceptions.md R201). -/
def Safety.underflow (s : Machine.State) : Bool :=
  match s.status with
  | .faulted (.callStackUnderflow _) => true
  | _ => false

/-- What holds of a state a run can be in: the memory is in canonical form, the code is whole slots
(spec/20_memory.md R55), the call stack holds at most `CALL_STACK_MAX` entries (spec/10_state.md R20),
and the status is not the error nothing raises. -/
structure Safety.Inv (s : Machine.State) : Prop where
  memory    : s.mem.wf
  slots     : s.code.length % 4 = 0
  callDepth : s.callStack.length ≤ Config.callStackMax
  status    : Safety.underflow s = false

end Sys2Proof
end

