-- ==== Sys2Proof/Certificates/Slice0/Obligations.lean ====
section
/-! DEFINITION. The statements about the model, taken from the rules of spec/. The vocabulary of the first
part says in the spec's own terms, and without the model's operations, what the statements need: when a
condition lets an instruction execute, what an operand is, where the program counter goes. -/

namespace Sys2Proof.Claims

open Machine

/-! ### Vocabulary -/

/-- When the instruction executes: the last column of the table in spec/30_encoding.md R79, with GTE and
LTE as the source writes them (spec/90_conflicts.md C4). -/
def Executes (cond : Cond) (cv : Word) : Prop :=
  match cond with
  | .al  => True
  | .eq  => cv.toInt = 0
  | .ne  => cv.toInt ≠ 0
  | .gt  => 0 < cv.toInt
  | .lt  => cv.toInt < 0
  | .gte => cv.toInt ≤ 0
  | .lte => 0 ≤ cv.toInt

/-- `src2 = if immediate then value else R[ops2]` (spec/41_data_processing.md R140). -/
def secondSource (s : State) (f : Fields) : Word := if f.immediate then f.value else s.reg f.ops2

/-- `if immediate then value else R[ops1]` (spec/41_data_processing.md R141, spec/42_data_transfer.md
R170). -/
def soleSource (s : State) (f : Fields) : Word := if f.immediate then f.value else s.reg f.ops1

/-- R15 after the instruction in slot `b` has left the value `v` in it: a write of the own slot is no
jump (spec/40_step_and_condition.md R125). -/
def slotAfter (b v : Word) : Word := if v = b then b + 1 else v

/-- The instruction in slot `R[15]` with fields `f` has written `v` to `R[dst]`, and nothing else but R15
and `cv`: R15 is the next slot, or the jump when `dst` is R15; `cv` is the value written with the S flag
and 0 without; every other register, the call stack, the status, the code and all of memory (so every
byte of it) are as before. That the latch reads R15, as destination, before it advances is an inference the
spec marks as its own (spec/40_step_and_condition.md R120). -/
structure Wrote (f : Fields) (s : State) (v : Word) (t : State) : Prop where
  result    : f.dst ≠ 15 → t.reg f.dst = v ∧ t.reg 15 = s.reg 15 + 1
  jump      : f.dst = 15 → t.reg 15 = slotAfter (s.reg 15) v
  cv        : t.cv = if f.sFlag then v else 0
  others    : ∀ r, r ≠ f.dst → r ≠ 15 → t.reg r = s.reg r
  callStack : t.callStack = s.callStack
  status    : t.status = s.status
  mem       : t.mem = s.mem
  code      : t.code = s.code

/-- The instruction `mk f`, where its condition lets it execute, completes and writes to `R[dst]` the
pattern whose unsigned value is `g` of the unsigned values of its two sources. -/
def WritesUnsigned (mk : Fields → Instr) (g : Nat → Nat → Nat) : Prop :=
  ∀ (f : Fields) (s : State), Executes f.cond s.cv →
    ∃ v t, exec (mk f) s = .next t ∧ Wrote f s v t ∧
      v.toNat = g (s.reg f.ops1).toNat (secondSource s f).toNat

/-- The instruction `mk f`, where its condition lets it execute, completes and writes to `R[dst]` the
pattern whose bit `k` is `g` of bit `k` of its two sources. -/
def WritesBitwise (mk : Fields → Instr) (g : Bool → Bool → Bool) : Prop :=
  ∀ (f : Fields) (s : State), Executes f.cond s.cv →
    ∃ v t, exec (mk f) s = .next t ∧ Wrote f s v t ∧
      ∀ k < 32, v.getLsbD k = g ((s.reg f.ops1).getLsbD k) ((secondSource s f).getLsbD k)

/-- A word stands in the slot R15 names, in a state whose run goes on: its four bytes, most significant
first, at the byte position four times R15 of a code of whole slots. -/
structure AtSlot (s : State) (w : Word) (pre post : List Byte) : Prop where
  running : s.status = .running
  whole   : s.code.length % 4 = 0
  code    : s.code = pre ++ bytesOfWord w ++ post
  slot    : pre.length = 4 * (s.reg 15).toNat

/-- `W[hi:lo]` as a number, for a field of `n` bits from bit `lo` up. -/
def bits (w : Word) (lo n : Nat) : Nat := w.toNat / 2 ^ lo % 2 ^ n

/-- `ror32(zext_32(v), n)` of spec/00_scope.md R8, for an 8-bit `v` and `0 ≤ n < 32`. -/
def ror32 (v n : Nat) : Nat := if n = 0 then v else (v >>> n ||| v <<< (32 - n)) % 2 ^ 32

end Sys2Proof.Claims

open Sys2Proof Sys2Proof.Machine Sys2Proof.Claims

/-! ### Reset and the step -/

/-- State after reset (spec/10_state.md R38). Only R13 is the source's; R15 = 0 is derived (log 4), and
the other values, the empty code among them, are the spec's decision D9 and the model's choices (log 2,
log 3). -/
def Obligations.ResetStateHasTheTableValues : Prop :=
  State.reset.reg 13 = BitVec.ofNat 32 (Config.stackSize - 1) ∧ Config.stackSize = 1024 ∧
  (∀ r : Reg, r ≠ 13 → State.reset.reg r = 0) ∧ State.reset.cv = 0 ∧ State.reset.callStack = [] ∧
  State.reset.status = .running ∧ State.reset.code = [] ∧
  ∀ a : Word, a.toNat < 1024 → State.reset.memRead a = some 0

/-- When the bytes at the program counter decode to an instruction, that instruction is well-formed and
the step is exactly its execution: nothing is added around `exec` (spec/40_step_and_condition.md R127). That
it is well-formed follows from spec/30_encoding.md R73 and R76; for `call`, that it has an immediate, it rests
on the spec's decision D6 (log 12). -/
def Obligations.StepRunsTheDecodedInstruction : Prop :=
  ∀ (s : State) (w : Word) (pre post rest : List Byte) (i : Instr), AtSlot s w pre post →
    decode (s.code.drop (4 * (s.reg 15).toNat)) = .ok (i, rest) →
    i.wellFormed = true ∧ rest = post ∧ step s = exec i s

/-- End of code: "if `s ≥ NSLOT` the status becomes `HaltedEnd` and nothing else changes", and it happens
nowhere else (spec/20_memory.md R57, spec/40_step_and_condition.md R111, spec/60_exceptions.md R203). The
test reads R15 unsigned and does not reduce four times R15 modulo 2^32: the spec's decision D17 (log 15). -/
def Obligations.EndOfCodeHaltsAndChangesNothingElse : Prop :=
  ∀ s : State, s.status = .running → s.code.length % 4 = 0 →
    (s.code.length ≤ 4 * (s.reg 15).toNat → step s = .next { s with status := .haltedEnd }) ∧
    (4 * (s.reg 15).toNat < s.code.length → ∀ t, step s = .next t → t.status ≠ .haltedEnd)

/-- A reserved encoding raises `InvalidOpcode` with the word, before the condition is looked at: the
status alone changes, `cv` and R15 among the rest stay (spec/40_step_and_condition.md R113). It rests on
the spec's decisions D5, D6, D15, D19 (log 12, log 14, log 17), and the number 14 of `call` on D3 (log 6). -/
def Obligations.ReservedEncodingRaisesInvalidOpcode : Prop :=
  ∀ (s : State) (w : Word) (pre post : List Byte), AtSlot s w pre post →
    (6 < bits w 28 4 ∨ bits w 20 4 = 14 ∧ bits w 24 1 = 0) →
    step s = .next { s with status := .faulted (.invalidOpcode w) }

/-- Only `Running` has a next step (spec/10_state.md R33, spec/60_exceptions.md R207); which stop answers
is the model's choice (log 22). -/
def Obligations.EndedRunHasNoNextStep : Prop :=
  ∀ s : State,
    (∀ e, s.status = .faulted e → step s = .fault (.trapped e)) ∧
    (s.status = .haltedEnd ∨ s.status = .haltedRet → step s = .refused .runOver)

/-- A code length that is not a multiple of 4 is refused (spec/20_memory.md R55, the spec's decision D18,
log 16). -/
def Obligations.BrokenCodeLengthIsRefused : Prop :=
  ∀ s : State, s.status = .running → s.code.length % 4 ≠ 0 → step s = .refused .codeLength

/-- The interpreter never blocks, "so a `Running` state always has a next step"
(spec/70_reset_and_hazards.md R249): no instruction and no encoding stops a running machine without a next
state, whatever its registers, memory and code, the code being whole slots (D18, log 16). That an error is
a next state is the model's choice (log 22). -/
def Obligations.RunningMachineAlwaysSteps : Prop :=
  ∀ s : State, s.status = .running → s.code.length % 4 = 0 → ∃ t, step s = .next t

/-- Every fetch of a slot during a run returns the same word: no step writes the code store
(spec/20_memory.md R58). -/
def Obligations.NoStepChangesTheCode : Prop :=
  ∀ s t : State, step s = .next t → t.code = s.code

/-! ### Decoding and encoding -/

/-- Where each field of the record stands in the word (spec/30_encoding.md R71 to R75, R79, R80). The
numbers of conditions and opcodes are the spec's decisions D3 and D4 (log 6); that `ops2` is 0 with an
immediate and `value` is 0 without one is its decision D8 (log 13). -/
def Obligations.DecodedFieldsFollowTheLayout : Prop :=
  ∀ (w : Word) (i : Instr), decodeWord w = .ok i →
    i.fields.cond.number.toNat = bits w 28 4 ∧
    (i.fields.sFlag = true ↔ bits w 27 1 = 1) ∧
    i.op.number.toNat = bits w 20 4 ∧
    i.fields.dst.val = bits w 16 4 ∧
    i.fields.ops1.val = bits w 12 4 ∧
    (i.fields.immediate = true ↔ bits w 24 1 = 1) ∧
    (i.fields.immediate = true →
      i.fields.value.toNat = ror32 (bits w 0 8) (2 * bits w 8 4) ∧ i.fields.ops2 = 0) ∧
    (i.fields.immediate = false → i.fields.ops2.val = bits w 8 4 ∧ i.fields.value = 0)

/-- The reserved encodings are exactly the condition numbers above 6 and `call` with I=0
(spec/30_encoding.md R91, R92, R96: the spec's decisions D5, D6, log 12; that 14 is `call`: D3, log 6). -/
def Obligations.WordIsInvalidExactlyWhenReserved : Prop :=
  ∀ w : Word, (∃ e, decodeWord w = .error e) ↔
    6 < bits w 28 4 ∨ bits w 20 4 = 14 ∧ bits w 24 1 = 0

/-- Bits 26..25 are reserved (spec/30_encoding.md R90): words that differ only there decode alike, the
machine executes the same instruction from a slot that holds either, and the assembler writes them 0. -/
def Obligations.ReservedBitsAreIgnoredAndWrittenZero : Prop :=
  (∀ w x : Word, (∀ k < 32, k ≠ 25 → k ≠ 26 → w.getLsbD k = x.getLsbD k) →
    decodeWord w = decodeWord x ∧
    ∀ (s : State) (pre post : List Byte) (i : Instr), AtSlot s w pre post → decodeWord w = .ok i →
      ∃ t : State, step s = .next t ∧
        step { s with code := pre ++ bytesOfWord x ++ post } =
          .next { t with code := pre ++ bytesOfWord x ++ post }) ∧
  ∀ (i : Instr) (w : Word), encodeWord i = some w → w.getLsbD 25 = false ∧ w.getLsbD 26 = false

/-- Immediate closure (spec/30_encoding.md R78): what is encodable comes back from its encoding, and what
is not is reported. -/
def Obligations.ImmediateEncodingIsClosed : Prop :=
  ∀ v : Word,
    ((∃ rot < 16, (v.rotateLeft (2 * rot)).toNat ≤ 255) →
      ∃ p, encodeImmediate v = some p ∧ expandImmediate p.1 p.2 = v) ∧
    ((∀ rot < 16, 255 < (v.rotateLeft (2 * rot)).toNat) → encodeImmediate v = none)

/-- The assembler emits, for each encodable value, the pair with the smallest `rot`
(spec/30_encoding.md R76, R77). -/
def Obligations.ImmediateEncodingTakesTheSmallestRotation : Prop :=
  ∀ (v : Word) (rot : BitVec 4) (val : BitVec 8), encodeImmediate v = some (rot, val) →
    (v.rotateLeft (2 * rot.toNat)).toNat = val.toNat ∧
    ∀ j < rot.toNat, 255 < (v.rotateLeft (2 * j)).toNat

/-- Every word the decoder accepts is a well-formed instruction: its immediate is encodable and a `call`
has one (spec/30_encoding.md R73, R76; that `call` needs an immediate is the spec's decision D6, log 12). -/
def Obligations.DecodedInstructionIsWellFormed : Prop :=
  ∀ (w : Word) (i : Instr), decodeWord w = .ok i → i.wellFormed = true

/-- Round trip (spec/30_encoding.md R84): every canonical instruction, with every operand at every value
its encoding admits, is encoded in four bytes, and decoding those bytes in front of any others gives it
back. The numbering and the zeros in unused fields are the spec's decisions D3, D4, D7 (log 6, log 13); that a
canonical `call` has an immediate rests on D6 (log 12). -/
def Obligations.DecodeOfEncodeGivesTheInstructionBack : Prop :=
  ∀ i : Instr, i.canonical = true →
    ∃ bs, encode i = some bs ∧ bs.length = 4 ∧ ∀ rest, decode (bs ++ rest) = .ok (i, rest)

/-- Unused fields are ignored (spec/30_encoding.md R93, the spec's decision D7, log 13): an instruction
executes as the one with 0 in every field R81 calls unused, and the encoder writes that one. -/
def Obligations.UnusedFieldsAreIgnored : Prop :=
  ∀ i : Instr, (∀ s : State, exec i s = exec i.canonicalize s) ∧
    (i.wellFormed = true →
      ∃ w, encodeWord i = some w ∧ decodeWord w = .ok i.canonicalize)

/-- A few words written out from the spec's encodings (spec/95_test_vectors.md section 2.3), one family
after the other. The numbers are the spec's decisions D3 and D4 (log 6), and that condition 7 is rejected is its
decision D5 (log 12). -/
def Obligations.WrittenOutWordsDecode : Prop :=
  decodeWord 0x00101200 = .ok (.add ⟨.al, false, 0, 1, .reg 2⟩) ∧
  decodeWord 0x49A3F1FF = .ok (.lsr ⟨.lt, true, 3, 15, .imm 0xC000003F⟩) ∧
  decodeWord 0x00B32000 = .ok (.cmp ⟨.al, false, 3, 2, .reg 0⟩) ∧
  decodeWord 0x00D0D000 = .ok (.stm ⟨.al, false, 0, 13, .reg 0⟩) ∧
  decodeWord 0x11E00C01 = .ok (.call ⟨.eq, false, 0, 0, .imm 256⟩) ∧
  decodeWord 0x70000000 = .error (.reservedCondition 7)

/-! ### The phases every instruction shares -/

/-- A skipped instruction "still advances PC by 1 and does not latch `cv`": any instruction whose
condition fails clears `cv`, advances R15 and does nothing else (spec/40_step_and_condition.md R118). -/
def Obligations.SkippedInstructionOnlyClearsCvAndAdvances : Prop :=
  ∀ (i : Instr) (s : State), ¬ Executes i.fields.cond s.cv →
    exec i s = .next { s with cv := 0, regs := s.regs.set 15 (s.reg 15 + 1) }

/-- The skip table as the source writes it (spec/40_step_and_condition.md R115, the spec's decision D13,
log 7), read in two's complement (log 23). -/
def Obligations.ConditionEvaluatorFollowsTheTable : Prop :=
  ∀ (cond : Cond) (cv : Word), skips cond cv = false ↔ Executes cond cv

/-- The condition word lives for one instruction (spec/40_step_and_condition.md R117, R121): after any
instruction it is 0, unless that one executed and was a `cmp` or latched with the S flag. -/
def Obligations.OnlyCmpAndTheSFlagLeaveAConditionWord : Prop :=
  ∀ (i : Instr) (s t : State), exec i s = .next t → t.cv ≠ 0 →
    Executes i.fields.cond s.cv ∧
      (i.op = .cmp ∨ i.fields.sFlag = true ∧ i.op ≠ .call ∧ i.op ≠ .ret)

/-- An instruction writes no register but its destination and R15, so none writes R14 implicitly; `cmp`,
`stm`, `call` and `ret` write R15 alone (spec/10_state.md R22, R24). -/
def Obligations.OnlyTheDestinationAndThePcAreWritten : Prop :=
  ∀ (i : Instr) (s t : State) (r : Reg), exec i s = .next t → r ≠ 15 →
    (r ≠ i.fields.dst ∨ i.op = .cmp ∨ i.op = .stm ∨ i.op = .call ∨ i.op = .ret) →
    t.reg r = s.reg r

/-- Nothing but `ldm` and `stm` reaches data memory (spec/42_data_transfer.md R173): any other instruction
runs alike whatever the memory holds, and leaves it as it is. -/
def Obligations.OnlyTransfersReachDataMemory : Prop :=
  ∀ (i : Instr) (s t : State) (m : Memory), (∀ f, i ≠ .ldm f) → (∀ f, i ≠ .stm f) →
    exec i s = .next t → t.mem = s.mem ∧ exec i { s with mem := m } = .next { t with mem := m }

/-- The call stack is private to `call` and `ret` (spec/10_state.md R34, spec/43_branching.md R186): any
other instruction runs alike whatever it holds, and leaves it as it is. -/
def Obligations.OnlyCallAndRetReachTheCallStack : Prop :=
  ∀ (i : Instr) (s t : State) (cs : List Word), (∀ f, i ≠ .call f) → (∀ f, i ≠ .ret f) →
    exec i s = .next t →
    t.callStack = s.callStack ∧ exec i { s with callStack := cs } = .next { t with callStack := cs }

/-- What each instruction can do to the run status (spec/60_exceptions.md R201, R203, R205): no
instruction but `div`, `ldm`, `stm`, `call` raises anything, each only on its own cause, only `ret` on an
empty call stack halts, and a skipped instruction does neither. The error of `div` is the spec's decision D11
(log 8), the unsigned address D17 (log 15), the information the status keeps the model's choice (log 25). -/
def Obligations.OnlyTheNamedCausesEndTheRun : Prop :=
  ∀ (i : Instr) (s t : State), exec i s = .next t → t.status ≠ s.status →
    Executes i.fields.cond s.cv ∧
    ((∃ f, i = .div f ∧ secondSource s f = 0 ∧ t.status = .faulted (.divisionByZero .div)) ∨
     (∃ f, i = .ldm f ∧ Config.stackSize ≤ (soleSource s f).toNat ∧
        t.status = .faulted (.memoryOutOfRange .ldm (soleSource s f))) ∨
     (∃ f, i = .stm f ∧ Config.stackSize ≤ (soleSource s f).toNat ∧
        t.status = .faulted (.memoryOutOfRange .stm (soleSource s f))) ∨
     (∃ f, i = .call f ∧ Config.callStackMax ≤ s.callStack.length ∧
        t.status = .faulted (.callStackOverflow .call)) ∨
     (∃ f, i = .ret f ∧ s.callStack = [] ∧ t.status = .haltedRet))

/-- An instruction that ends the run writes nothing: `cv` is 0 from phase C, R15 stays at the
instruction's slot, and no register, memory word or call-stack entry changes (spec/60_exceptions.md R203,
R206, the spec's decisions D15, D16, log 14). -/
def Obligations.InstructionThatEndsTheRunWritesNothing : Prop :=
  ∀ (i : Instr) (s t : State), exec i s = .next t → t.status ≠ s.status →
    t = { s with cv := 0, status := t.status }

/-- There is no one-instruction infinite loop: where a running machine goes on after an instruction, R15
names another slot than the instruction's own (spec/40_step_and_condition.md R125, and R126, which the spec
marks as derived). -/
def Obligations.NoInstructionStaysInItsSlot : Prop :=
  ∀ (i : Instr) (s t : State), exec i s = .next t → t.status = s.status →
    t.status = .running → t.reg 15 ≠ s.reg 15

/-- The invariant of the machine is kept by every step from every state that has it: the memory stays in
canonical form, the code whole slots, the call stack within its bound (spec/10_state.md R20), and
`CallStackUnderflow` is never raised (spec/90_conflicts.md C3, log 24). The canonical form is the model's
(log 20), and that a code of whole slots is all there is to run is the spec's decision D18 (log 16). -/
def Obligations.EveryStepKeepsTheInvariant : Prop :=
  ∀ s t : State, Safety.Inv s → step s = .next t → Safety.Inv t

/-- The invariant holds after reset: the empty memory, code and call stack are the spec's decision D9 and the
model's choices (log 2, log 3). -/
def Obligations.ResetStateMeetsTheInvariant : Prop := Safety.Inv State.reset

/-! ### Data processing -/

/-- `mov` copies its source to `R[dst]` (spec/41_data_processing.md R141). -/
def Obligations.MovWritesItsSource : Prop :=
  ∀ (f : Fields) (s : State), Executes f.cond s.cv →
    ∃ t, exec (.mov f) s = .next t ∧ Wrote f s (soleSource s f) t

/-- `R[dst] <- (a + src2) mod 2^32` (spec/41_data_processing.md R142). -/
def Obligations.AddWritesTheSum : Prop := WritesUnsigned .add fun a b => (a + b) % 2 ^ 32

/-- `R[dst] <- (a − src2) mod 2^32` (spec/41_data_processing.md R143). -/
def Obligations.SubWritesTheDifference : Prop :=
  WritesUnsigned .sub fun a b => if b ≤ a then a - b else a + 2 ^ 32 - b

/-- `R[dst] <- (src2 − a) mod 2^32` (spec/41_data_processing.md R144). -/
def Obligations.RsbWritesTheReverseDifference : Prop :=
  WritesUnsigned .rsb fun a b => if a ≤ b then b - a else b + 2 ^ 32 - a

/-- `R[dst] <- (a × src2) mod 2^32` (spec/41_data_processing.md R145). -/
def Obligations.MulWritesTheLowHalfOfTheProduct : Prop :=
  WritesUnsigned .mul fun a b => a * b % 2 ^ 32

/-- `R[dst] <- a AND src2`, bit by bit (spec/41_data_processing.md R147). -/
def Obligations.AndWritesTheConjunction : Prop := WritesBitwise .and fun x y => x && y

/-- `R[dst] <- a XOR src2`, bit by bit (spec/41_data_processing.md R148). -/
def Obligations.XorWritesTheExclusiveOr : Prop := WritesBitwise .xor fun x y => x != y

/-- `R[dst] <- a OR src2`, bit by bit (spec/41_data_processing.md R149). -/
def Obligations.OrrWritesTheDisjunction : Prop := WritesBitwise .orr fun x y => x || y

/-- `R[dst] <- if n ≥ 32 then 0 else (a × 2^n) mod 2^32`, `n` the whole second source
(spec/41_data_processing.md R150; the 0 is the spec's decision D12, log 9). -/
def Obligations.LslShiftsLeftByTheWholeCount : Prop :=
  WritesUnsigned .lsl fun a n => if 32 ≤ n then 0 else a * 2 ^ n % 2 ^ 32

/-- `R[dst] <- if n ≥ 32 then 0 else floor(a / 2^n)` (spec/41_data_processing.md R151; the 0 is the spec's
decision D12, log 9). -/
def Obligations.LsrShiftsRightByTheWholeCount : Prop :=
  WritesUnsigned .lsr fun a n => if 32 ≤ n then 0 else a / 2 ^ n

/-- `R[dst] <- floor(a / src2)`, unsigned, for a second source that is not 0
(spec/41_data_processing.md R146). -/
def Obligations.DivWritesTheUnsignedQuotient : Prop :=
  ∀ (f : Fields) (s : State), Executes f.cond s.cv → secondSource s f ≠ 0 →
    ∃ v t, exec (.div f) s = .next t ∧ Wrote f s v t ∧
      v.toNat = (s.reg f.ops1).toNat / (secondSource s f).toNat

/-- `div` with a zero second source raises `DivisionByZero` and writes nothing
(spec/41_data_processing.md R146, the spec's decisions D11, D15, log 8, log 14; the mnemonic kept in the status
is log 25). -/
def Obligations.DivByZeroRaisesItsError : Prop :=
  ∀ (f : Fields) (s : State), Executes f.cond s.cv → secondSource s f = 0 →
    exec (.div f) s = .next { s with cv := 0, status := .faulted (.divisionByZero .div) }

/-- `cmp` leaves no register changed but R15, and `cv` is the signed difference of `R[dst]` and `R[ops1]`,
wrapped to 32 bits; with the S flag it is `R[dst]` instead (spec/41_data_processing.md R152,
spec/40_step_and_condition.md R120; the wrap is the spec's decision D14, log 11; the case with the S flag is
an inference R120 marks as its own). -/
def Obligations.CmpLeavesTheSignedDifference : Prop :=
  ∀ (f : Fields) (s : State), Executes f.cond s.cv →
    ∃ t, exec (.cmp f) s = .next t ∧
      t.cv.toInt = (if f.sFlag then (s.reg f.dst).toInt
        else ((s.reg f.dst).toInt - (s.reg f.ops1).toInt).bmod (2 ^ 32)) ∧
      t.reg 15 = s.reg 15 + 1 ∧ (∀ r, r ≠ 15 → t.reg r = s.reg r) ∧
      t.callStack = s.callStack ∧ t.status = s.status ∧ t.mem = s.mem ∧ t.code = s.code

/-! ### Data transfer -/

/-- `R[dst] <- MemRead(addr, 1)` for an address in range (spec/42_data_transfer.md R171). The unsigned reading
of the range is the spec's decision D17 (log 15). -/
def Obligations.LdmLoadsTheWord : Prop :=
  ∀ (f : Fields) (s : State), Executes f.cond s.cv →
    (soleSource s f).toNat < Config.stackSize →
    ∃ t, exec (.ldm f) s = .next t ∧ Wrote f s (s.mem.readWord (soleSource s f).toNat) t

/-- `MemWrite(addr, 1, R[dst])` for an address in range, in a memory in canonical form: the word at
`addr` reads as the register stored, every other word and every byte outside its four reads as before, no
register but R15 changes, and with the S flag `cv` is the value stored (spec/42_data_transfer.md R172; the case
with the S flag is an inference spec/40_step_and_condition.md R120 marks as its own; the unsigned range is the
spec's decision D17, log 15). -/
def Obligations.StmStoresTheWord : Prop :=
  ∀ (f : Fields) (s : State), s.mem.wf → Executes f.cond s.cv →
    (soleSource s f).toNat < Config.stackSize →
    ∃ t, exec (.stm f) s = .next t ∧
      t.mem.readWord (soleSource s f).toNat = s.reg f.dst ∧
      (∀ a, a ≠ (soleSource s f).toNat → t.mem.readWord a = s.mem.readWord a) ∧
      (∀ b, b < 4 * (soleSource s f).toNat ∨ 4 * (soleSource s f).toNat + 4 ≤ b →
        t.mem.readByte b = s.mem.readByte b) ∧
      t.cv = (if f.sFlag then s.reg f.dst else 0) ∧
      t.reg 15 = s.reg 15 + 1 ∧ (∀ r, r ≠ 15 → t.reg r = s.reg r) ∧
      t.callStack = s.callStack ∧ t.status = s.status ∧ t.code = s.code

/-- An address not below `STACK_SIZE`, taken as an unsigned value, raises `MemoryOutOfRange` with the
mnemonic and the address, and writes nothing (spec/20_memory.md R52, spec/42_data_transfer.md R171, R172;
the unsigned reading and the state kept are the spec's decisions D15, D17, log 14, log 15; the mnemonic and
address kept in the status are log 25). -/
def Obligations.TransferOutOfRangeRaisesItsError : Prop :=
  ∀ (f : Fields) (s : State), Executes f.cond s.cv →
    Config.stackSize ≤ (soleSource s f).toNat →
    exec (.ldm f) s = .next
      { s with cv := 0, status := .faulted (.memoryOutOfRange .ldm (soleSource s f)) } ∧
    exec (.stm f) s = .next
      { s with cv := 0, status := .faulted (.memoryOutOfRange .stm (soleSource s f)) }

/-- Data memory returns what was stored: after `MemWrite(a, 1, v)` the word at `a` is `v` and every other
word of the memory is what it was (spec/20_memory.md R53, R61; the unsigned range is the spec's decision D17,
log 15). -/
def Obligations.LoadReturnsTheLatestStore : Prop :=
  ∀ (s : State) (a v : Word), s.mem.wf → a.toNat < Config.stackSize →
    ∃ t, s.memWrite a v = some t ∧ t.mem.wf ∧
      ∀ b : Word, b.toNat < Config.stackSize →
        t.memRead b = if b = a then some v else s.memRead b

/-! ### Branching -/

/-- `call` pushes the slot after it and goes to its target; with its own slot as target it falls through
(spec/43_branching.md R181, R183). R14, data memory and every register but R15 are untouched, and the S
flag is ignored. R183 is marked as derived; the depth is open (D10, log 10). -/
def Obligations.CallPushesTheReturnSlotAndJumps : Prop :=
  ∀ (f : Fields) (s : State), Executes f.cond s.cv → f.immediate = true →
    s.callStack.length < Config.callStackMax →
    ∃ t, exec (.call f) s = .next t ∧
      t.callStack = (s.reg 15 + 1) :: s.callStack ∧
      t.reg 15 = slotAfter (s.reg 15) f.value ∧ (∀ r, r ≠ 15 → t.reg r = s.reg r) ∧
      t.cv = 0 ∧ t.status = s.status ∧ t.mem = s.mem ∧ t.code = s.code

/-- `call` with `CALL_STACK_MAX` entries held raises `CallStackOverflow` and writes nothing
(spec/43_branching.md R181; the depth is open, D10, log 10; the state kept is the spec's decision D15, log 14;
the mnemonic kept in the status is log 25). -/
def Obligations.CallOnAFullCallStackRaisesItsError : Prop :=
  ∀ (f : Fields) (s : State), Executes f.cond s.cv → Config.callStackMax ≤ s.callStack.length →
    exec (.call f) s = .next { s with cv := 0, status := .faulted (.callStackOverflow .call) }

/-- `ret` pops the most recent slot into R15; its own slot falls through (spec/43_branching.md R182,
R184, marked as derived). No other register and no memory is touched, and the S flag is ignored. -/
def Obligations.RetPopsTheMostRecentSlot : Prop :=
  ∀ (f : Fields) (s : State) (v : Word) (rest : List Word), Executes f.cond s.cv →
    s.callStack = v :: rest →
    ∃ t, exec (.ret f) s = .next t ∧ t.callStack = rest ∧
      t.reg 15 = slotAfter (s.reg 15) v ∧ (∀ r, r ≠ 15 → t.reg r = s.reg r) ∧
      t.cv = 0 ∧ t.status = s.status ∧ t.mem = s.mem ∧ t.code = s.code

/-- `ret` on an empty call stack ends the run successfully with R15 at its slot (spec/43_branching.md R182,
spec/60_exceptions.md R203; that this is no error: spec/90_conflicts.md C3, log 24; R15 and `cv` are the
spec's decision D16, log 14). -/
def Obligations.RetOnAnEmptyCallStackHalts : Prop :=
  ∀ (f : Fields) (s : State), Executes f.cond s.cv → s.callStack = [] →
    exec (.ret f) s = .next { s with cv := 0, status := .haltedRet }

/-- "`call L ; ... ; ret` restores PC to the instruction after the call" (spec/43_branching.md R182): a
`ret` executed in any state that has the call stack the `call` left goes to the slot after the `call`,
unless that is the `ret`'s own slot, and restores the call stack. -/
def Obligations.RetReturnsToTheSlotAfterTheCall : Prop :=
  ∀ (f g : Fields) (s t u : State), Executes f.cond s.cv →
    s.callStack.length < Config.callStackMax → exec (.call f) s = .next t →
    u.callStack = t.callStack → Executes g.cond u.cv → s.reg 15 + 1 ≠ u.reg 15 →
    ∃ r, exec (.ret g) u = .next r ∧ r.reg 15 = s.reg 15 + 1 ∧ r.callStack = s.callStack

/-! ### Pseudo-instructions, assembler, host -/

/-- `push rD` as its two instructions, run one after the other: R13 goes down by 1 and the word there is
then `R[D]`, the decremented value for D = 13 (spec/44_pseudo_instructions.md R190); every other word is
as before. For D = 15 the word is the slot of the second instruction (spec/10_state.md R28). The unsigned range is the
spec's decision D17 (log 15). -/
def Obligations.PushStoresBelowTheStackPointer : Prop :=
  ∀ (d : Reg) (s : State), s.mem.wf → (s.reg 13 - 1).toNat < Config.stackSize →
    ∃ i j t u, pushExpansion d = [i, j] ∧ exec i s = .next t ∧ exec j t = .next u ∧
      u.reg 13 = s.reg 13 - 1 ∧ u.reg 15 = s.reg 15 + 2 ∧
      u.mem.readWord (s.reg 13 - 1).toNat =
        (if d = 13 then s.reg 13 - 1 else if d = 15 then s.reg 15 + 1 else s.reg d) ∧
      (∀ a, a ≠ (s.reg 13 - 1).toNat → u.mem.readWord a = s.mem.readWord a) ∧
      (∀ r, r ≠ 13 → r ≠ 15 → u.reg r = s.reg r) ∧ u.cv = 0 ∧ u.status = s.status

/-- "`push rX ; pop rY` is semantically `mov rY, rX`, and leaves `SP` restored", for X and Y other than 13
and 15 and a legal address, and `cv` is left 0 (spec/44_pseudo_instructions.md R192). The unsigned range is the
spec's decision D17 (log 15). -/
def Obligations.PushThenPopMovesAndRestoresTheStackPointer : Prop :=
  ∀ (x y : Reg) (s : State), s.mem.wf → x ≠ 13 → x ≠ 15 → y ≠ 13 → y ≠ 15 →
    (s.reg 13 - 1).toNat < Config.stackSize →
    ∃ i j k l t u v z, pushExpansion x = [i, j] ∧ popExpansion y = [k, l] ∧
      exec i s = .next t ∧ exec j t = .next u ∧ exec k u = .next v ∧ exec l v = .next z ∧
      z.reg y = s.reg x ∧ z.reg 13 = s.reg 13 ∧ z.reg 15 = s.reg 15 + 4 ∧
      (∀ r, r ≠ y → r ≠ 15 → z.reg r = s.reg r) ∧ z.cv = 0 ∧ z.callStack = s.callStack ∧
      z.status = s.status

/-- Every program the assembler accepts is whole slots, and each of its slots holds a canonical
instruction, so no word of it raises `InvalidOpcode` (spec/30_encoding.md R83, R102). The zeros in
unused fields are the spec's decision D7 (log 13), the reserved encodings D5 and D6 (log 12), the syntax D20
(log 18). -/
def Obligations.AssembledCodeIsWholeSlotsOfInstructions : Prop :=
  ∀ (source : Text) (code : List Byte), assemble source = .ok code →
    code.length % 4 = 0 ∧
    ∀ slot, 4 * slot < code.length →
      ∃ i, decodeWord (codeWord code slot) = .ok i ∧ i.canonical = true

/-- The host reads back the register or memory word it has set, and the machine is otherwise as before
(spec/20_memory.md R63, spec/10_state.md R26, spec/70_reset_and_hazards.md R236). That `get` is answered
before `exec` is the model's choice (log 19). -/
def Obligations.HostReadsBackWhatItSet : Prop :=
  ∀ (vm : Vm) (loc v : Word), vm.state.mem.wf → vm.execCalled = false →
    (loc.toNat < 16 → ∃ t, hostSet .reg loc v vm = .ok t ∧
      hostGet .reg loc t = .ok v ∧ t.execCalled = false ∧ t.state.mem = vm.state.mem ∧
      t.state.cv = vm.state.cv ∧ t.state.callStack = vm.state.callStack ∧
      t.state.status = vm.state.status ∧ t.state.code = vm.state.code ∧
      ∀ r : Reg, r.val ≠ loc.toNat → t.state.reg r = vm.state.reg r) ∧
    (loc.toNat < Config.stackSize → ∃ t, hostSet .mem loc v vm = .ok t ∧
      hostGet .mem loc t = .ok v ∧ t.execCalled = false ∧ t.state.regs = vm.state.regs ∧
      t.state.cv = vm.state.cv ∧ t.state.callStack = vm.state.callStack ∧
      t.state.status = vm.state.status ∧ t.state.code = vm.state.code ∧
      ∀ b, b ≠ loc.toNat → t.state.mem.readWord b = vm.state.mem.readWord b)

/-- `exec` happens once and owns the machine until it returns (spec/70_reset_and_hazards.md R236,
spec/60_exceptions.md R207, the spec's decision D22, log 19): after an accepted `exec`, of the empty code
among others, every `set` and every further `exec` is refused; while the run goes on registers and memory
cannot be read and nothing is returned; once it has ended they can, also after an error, and the answer
is success exactly for the two normal ends. -/
def Obligations.ExecHappensOnceAndOwnsTheMachine : Prop :=
  ∀ (fuel : Nat) (code : List Byte) (vm t : Vm) (answer : Option (Except RunError Unit)),
    hostExec fuel code vm = .ok (t, answer) →
    (∀ loc v, hostSet .reg loc v t = .error .wrongTime ∧ hostSet .mem loc v t = .error .wrongTime) ∧
    (∀ n c, hostExec n c t = .error .wrongTime) ∧
    (t.state.status = .running →
      answer = none ∧
      ∀ loc, hostGet .reg loc t = .error .wrongTime ∧ hostGet .mem loc t = .error .wrongTime) ∧
    (t.state.status ≠ .running →
      (answer = some (.ok ()) ↔ t.state.status = .haltedEnd ∨ t.state.status = .haltedRet) ∧
      (∀ e, answer = some (.error e) ↔ t.state.status = .faulted e) ∧
      (∀ r : Reg, hostGet .reg (BitVec.ofNat 32 r.val) t = .ok (t.state.reg r)) ∧
      ∀ a : Word, a.toNat < Config.stackSize →
        hostGet .mem a t = .ok (t.state.mem.readWord a.toNat))
end

