-- ==== Sys2Proof/Laws/Decode.lean ====
section
/-! SUPPORT. The laws of the decoder and the encoder: the numbers of conditions and opcodes, the fields of
a packed word, the immediate and its inverse, what `decodeWord` can answer. -/

namespace Sys2Proof

/-! ### Numbers -/

@[simp] theorem Cond.ofNumber_number (c : Cond) : Cond.ofNumber c.number = some c := by
  cases c <;> decide

@[simp] theorem Opcode.ofNumber_number (o : Opcode) : Opcode.ofNumber o.number = some o := by
  cases o <;> decide

theorem Cond.ofNumber_eq_some {n : BitVec 4} {c : Cond} :
    Cond.ofNumber n = some c ↔ n = c.number := by
  refine ⟨fun h => ?_, fun h => h ▸ Cond.ofNumber_number c⟩
  exact (eq_of_beq (List.find?_some (p := fun c : Cond => c.number == n) h)).symm

theorem Opcode.ofNumber_eq_some {n : BitVec 4} {o : Opcode} :
    Opcode.ofNumber n = some o ↔ n = o.number := by
  refine ⟨fun h => ?_, fun h => h ▸ Opcode.ofNumber_number o⟩
  exact (eq_of_beq (List.find?_some (p := fun o : Opcode => o.number == n) h)).symm

theorem Cond.ofNumber_eq_none {n : BitVec 4} : Cond.ofNumber n = none ↔ 6 < n.toNat := by
  revert n; decide

/-- Every opcode number has an instruction. -/
theorem Opcode.ofNumber_ne_none (n : BitVec 4) : Opcode.ofNumber n ≠ none := by
  revert n; decide

/-! ### Records -/

@[simp] theorem Instr.op_make (op : Opcode) (f : Fields) : (Instr.make op f).op = op := by
  cases op <;> rfl

@[simp] theorem Instr.fields_make (op : Opcode) (f : Fields) : (Instr.make op f).fields = f := by
  cases op <;> rfl

@[simp] theorem Instr.make_op_fields (i : Instr) : Instr.make i.op i.fields = i := by
  cases i <;> rfl

@[simp] theorem Instr.op_canonicalize (i : Instr) : i.canonicalize.op = i.op := by
  cases i <;> rfl

/-- The two checks of `wellFormed`. -/
theorem Instr.wellFormed_iff (i : Instr) :
    i.wellFormed = true ↔
      i.fields.src.wellFormed = true ∧ (i.op = .call → i.fields.immediate = true) := by
  cases i <;> simp [Instr.wellFormed, Instr.fields, Instr.op]

/-! ### What the decoder can answer -/

/-- Every way a word decodes to an instruction. -/
theorem decodeWord_eq_ok {w : Word} {i : Instr} :
    decodeWord w = .ok i ↔
      w.extractLsb' 28 4 = i.fields.cond.number ∧ w.extractLsb' 20 4 = i.op.number ∧
        i.fields = decodeFields i.fields.cond w ∧ ¬ (i.op = .call ∧ w.getLsbD 24 = false) := by
  unfold decodeWord
  cases hc : Cond.ofNumber (w.extractLsb' 28 4) with
  | none =>
    simp only [reduceCtorEq, false_iff]
    rintro ⟨h, -⟩
    rw [h, Cond.ofNumber_number] at hc
    cases hc
  | some c =>
    rw [Cond.ofNumber_eq_some] at hc
    cases ho : Opcode.ofNumber (w.extractLsb' 20 4) with
    | none => exact absurd ho (Opcode.ofNumber_ne_none _)
    | some o =>
      rw [Opcode.ofNumber_eq_some] at ho
      simp only
      constructor
      · intro h
        split at h
        · cases h
        · rename_i hcall
          cases h
          rw [Instr.fields_make, Instr.op_make]
          exact ⟨hc, ho, rfl, hcall⟩
      · rintro ⟨h1, h2, h3, h4⟩
        have e1 : i.fields.cond = c := by
          have := (Cond.ofNumber_eq_some (n := c.number) (c := i.fields.cond)).2 (hc ▸ h1)
          simpa using this.symm
        have e2 : i.op = o := by
          have := (Opcode.ofNumber_eq_some (n := o.number) (o := i.op)).2 (ho ▸ h2)
          simpa using this.symm
        rw [← e2, if_neg h4, ← e1, ← h3, Instr.make_op_fields]

/-- A word that is no instruction: a reserved condition, or `call` without its immediate. -/
theorem decodeWord_error_iff {w : Word} :
    (∃ e, decodeWord w = .error e) ↔
      6 < (w.extractLsb' 28 4).toNat ∨
        w.extractLsb' 20 4 = Opcode.number .call ∧ w.getLsbD 24 = false := by
  unfold decodeWord
  cases hc : Cond.ofNumber (w.extractLsb' 28 4) with
  | none => exact iff_of_true ⟨_, rfl⟩ (.inl (Cond.ofNumber_eq_none.1 hc))
  | some c =>
    have hn : ¬ 6 < (w.extractLsb' 28 4).toNat := fun h => by
      rw [Cond.ofNumber_eq_none.2 h] at hc; cases hc
    cases ho : Opcode.ofNumber (w.extractLsb' 20 4) with
    | none => exact absurd ho (Opcode.ofNumber_ne_none _)
    | some o =>
      rw [Opcode.ofNumber_eq_some] at ho
      have hcall : o = .call ↔ o.number = Opcode.number .call := by cases o <;> decide
      simp only [hn, false_or, ho, ← hcall]
      split <;> simp_all

/-! ### The immediate -/

/-- A rotation right undoes the rotation left by the same even amount below 32. -/
theorem rotateRight_rotateLeft (v : Word) {n : Nat} (h : n < 32) :
    (v.rotateLeft n).rotateRight n = v := by
  apply BitVec.eq_of_getLsbD_eq
  intro i hi
  rw [BitVec.getLsbD_rotateRight, BitVec.getLsbD_rotateLeft, BitVec.getLsbD_rotateLeft,
    Nat.mod_eq_of_lt h]
  by_cases h1 : i < 32 - n
  · simp [h1, show ¬ n + i < n by omega, show n + i < 32 by omega]
  · simp [h1, hi, show i - (32 - n) < n by omega, show 32 - n + (i - (32 - n)) = i by omega]

theorem rotateLeft_rotateRight (v : Word) {n : Nat} (h : n < 32) :
    (v.rotateRight n).rotateLeft n = v := by
  apply BitVec.eq_of_getLsbD_eq
  intro i hi
  rw [BitVec.getLsbD_rotateLeft, BitVec.getLsbD_rotateRight, BitVec.getLsbD_rotateRight,
    Nat.mod_eq_of_lt h]
  by_cases h1 : i < n
  · simp [h1, hi, show ¬ 32 - n + i < 32 - n by omega, show 32 - n + i < 32 by omega]
  · simp [h1, hi, show i - n < 32 - n by omega, show n + (i - n) = i by omega]

/-- The constants a word can hold are encodable. -/
theorem encodable_expandImmediate (rot : BitVec 4) (val : BitVec 8) :
    encodable (expandImmediate rot val) = true := by
  rw [encodable, List.any_eq_true]
  refine ⟨rot.toNat, List.mem_range.2 rot.isLt, ?_⟩
  rw [expandImmediate, rotateLeft_rotateRight _ (by have := rot.isLt; omega)]
  have := val.isLt
  simp; omega

/-- What `encodeImmediate` answers is the constant again. -/
theorem expandImmediate_of_encodeImmediate {v : Word} {rot : BitVec 4} {val : BitVec 8}
    (h : encodeImmediate v = some (rot, val)) : expandImmediate rot val = v := by
  obtain ⟨i, hi, hv⟩ := List.exists_of_findSome?_eq_some h
  rw [List.mem_range] at hi
  split at hv
  · rename_i hle
    cases hv
    rw [expandImmediate, BitVec.toNat_ofNat, Nat.mod_eq_of_lt (by omega)]
    rw [show (((v.rotateLeft (2 * i)).setWidth 8).setWidth 32) = v.rotateLeft (2 * i) from ?_,
      rotateRight_rotateLeft _ (by omega)]
    apply BitVec.eq_of_toNat_eq
    rw [BitVec.toNat_setWidth, BitVec.toNat_setWidth]; omega
  · cases hv

/-- The encoder fails exactly on the constants that are not encodable. -/
theorem encodeImmediate_isSome (v : Word) : (encodeImmediate v).isSome = encodable v := by
  rw [Bool.eq_iff_iff, encodeImmediate, encodable, List.isSome_findSome?, List.any_eq_true,
    List.any_eq_true]
  refine exists_congr fun i => and_congr_right fun _ => ?_
  split <;> simp_all

theorem encodeImmediate_of_encodable {v : Word} (h : encodable v = true) :
    ∃ rot val, encodeImmediate v = some (rot, val) ∧ expandImmediate rot val = v := by
  rw [← encodeImmediate_isSome, Option.isSome_iff_exists] at h
  obtain ⟨⟨rot, val⟩, h⟩ := h
  exact ⟨rot, val, h, expandImmediate_of_encodeImmediate h⟩

/-! ### The fields of a packed word -/

section Pack
variable (c : BitVec 4) (s i : Bool) (o d a : BitVec 4) (low : BitVec 12)

theorem getLsbD_packWord (k : Nat) :
    (packWord c s i o d a low).getLsbD k =
      if k < 12 then low.getLsbD k else if k < 16 then a.getLsbD (k - 12)
      else if k < 20 then d.getLsbD (k - 16) else if k < 24 then o.getLsbD (k - 20)
      else if k < 25 then i else if k < 27 then false else if k < 28 then s
      else c.getLsbD (k - 28) := by
  simp only [packWord, BitVec.getLsbD_append]
  split_ifs <;> first
    | omega
    | rfl
    | (rw [BitVec.getLsbD_ofBool]; simp; omega)
    | simp

/-- Four bits of a packed word, read at their place. -/
theorem packWord_extract {lo : Nat} {x : BitVec 4}
    (h : ∀ k < 4, (packWord c s i o d a low).getLsbD (lo + k) = x.getLsbD k) :
    (packWord c s i o d a low).extractLsb' lo 4 = x := by
  apply BitVec.eq_of_getLsbD_eq
  intro k hk
  rw [BitVec.getLsbD_extractLsb', h k hk]
  simp [hk]

@[simp] theorem packWord_cond : (packWord c s i o d a low).extractLsb' 28 4 = c :=
  packWord_extract _ _ _ _ _ _ _ fun k hk => by
    rw [getLsbD_packWord]; split_ifs <;> first | omega | (congr 1; omega)

@[simp] theorem packWord_opcode : (packWord c s i o d a low).extractLsb' 20 4 = o :=
  packWord_extract _ _ _ _ _ _ _ fun k hk => by
    rw [getLsbD_packWord]; split_ifs <;> first | omega | (congr 1; omega)

@[simp] theorem packWord_dst : (packWord c s i o d a low).extractLsb' 16 4 = d :=
  packWord_extract _ _ _ _ _ _ _ fun k hk => by
    rw [getLsbD_packWord]; split_ifs <;> first | omega | (congr 1; omega)

@[simp] theorem packWord_ops1 : (packWord c s i o d a low).extractLsb' 12 4 = a :=
  packWord_extract _ _ _ _ _ _ _ fun k hk => by
    rw [getLsbD_packWord]; split_ifs <;> first | omega | (congr 1; omega)

theorem packWord_sFlag : (packWord c s i o d a low).getLsbD 27 = s := by
  rw [getLsbD_packWord]; rfl

theorem packWord_immediate : (packWord c s i o d a low).getLsbD 24 = i := by
  rw [getLsbD_packWord]; rfl

theorem packWord_reserved {k : Nat} (h : k = 25 ∨ k = 26) :
    (packWord c s i o d a low).getLsbD k = false := by
  rw [getLsbD_packWord]; rcases h with rfl | rfl <;> rfl

theorem packWord_high (hi : BitVec 4) (lo : BitVec 8) :
    (packWord c s i o d a (hi ++ lo)).extractLsb' 8 4 = hi :=
  packWord_extract _ _ _ _ _ _ _ fun k hk => by
    rw [getLsbD_packWord, if_pos (by omega), BitVec.getLsbD_append, if_neg (by omega)]
    congr 1; omega

theorem packWord_low (hi : BitVec 4) (lo : BitVec 8) :
    (packWord c s i o d a (hi ++ lo)).extractLsb' 0 8 = lo := by
  apply BitVec.eq_of_getLsbD_eq
  intro k hk
  rw [BitVec.getLsbD_extractLsb', getLsbD_packWord, if_pos (by omega), BitVec.getLsbD_append,
    if_pos (by omega)]
  simp [hk]

end Pack

@[simp] theorem regBits_toNat (r : Reg) : (regBits r).toNat = r.val := by
  simp [regBits]

/-- A register index read back from the field it was written to. -/
theorem regField_eq {w : Word} {lo : Nat} {r : Reg} (h : w.extractLsb' lo 4 = regBits r) :
    regField w lo = r := by
  apply Fin.ext
  simp [regField, h]

/-- The I flag of an operand. -/
def Src2.immediate : Src2 → Bool
  | .reg _ => false
  | .imm _ => true

theorem Fields.immediate_eq (f : Fields) : f.immediate = f.src.immediate := by
  unfold Fields.immediate Src2.immediate; cases f.src <;> rfl

/-- The operand of a packed word, read back. -/
theorem decodeSrc2_packWord {src : Src2} {low : BitVec 12} (h : encodeSrc2 src = some low)
    (c : BitVec 4) (s : Bool) (o d a : BitVec 4) {i : Bool}
    (hi : i = src.immediate) :
    decodeSrc2 (packWord c s i o d a low) = src := by
  cases src with
  | reg r =>
    cases h
    subst hi
    rw [decodeSrc2, packWord_immediate, if_neg (by simp [Src2.immediate]), regField_eq (packWord_high ..)]
  | imm v =>
    simp only [encodeSrc2, Option.map_eq_some_iff] at h
    obtain ⟨⟨rot, val⟩, hv, rfl⟩ := h
    subst hi
    rw [decodeSrc2, packWord_immediate, if_pos (by simp [Src2.immediate]), packWord_high, packWord_low,
      expandImmediate_of_encodeImmediate hv]

/-- Decoding the word the encoder writes for some fields. -/
theorem decodeWord_encodeFields {op : Opcode} {f : Fields} {w : Word}
    (h : encodeFields op f = some w) (hcall : op = .call → f.immediate = true) :
    decodeWord w = .ok (Instr.make op f) := by
  simp only [encodeFields, Option.map_eq_some_iff] at h
  obtain ⟨low, hl, rfl⟩ := h
  rw [decodeWord_eq_ok]
  refine ⟨by simp, by simp, ?_, ?_⟩
  · simp only [Instr.fields_make, decodeFields, packWord_sFlag]
    rw [regField_eq (packWord_dst ..), regField_eq (packWord_ops1 ..),
      decodeSrc2_packWord hl _ _ _ _ _ (Fields.immediate_eq f)]
  · rw [Instr.op_make, packWord_immediate]
    rintro ⟨h1, h2⟩
    rw [hcall h1] at h2
    cases h2

/-- The encoder answers a word for every operand a word can hold. -/
theorem encodeFields_of_wellFormed (op : Opcode) {f : Fields} (h : f.src.wellFormed = true) :
    ∃ w, encodeFields op f = some w := by
  unfold encodeFields
  cases hs : f.src with
  | reg r => exact ⟨_, rfl⟩
  | imm v =>
    rw [hs] at h
    obtain ⟨rot, val, hv, -⟩ := encodeImmediate_of_encodable h
    exact ⟨_, by simp [encodeSrc2, hv]; rfl⟩

/-! ### Bytes -/

/-- The four bytes of a word, put together, are the word. -/
@[simp] theorem wordOfBytes_extract (v : Word) :
    wordOfBytes (v.extractLsb' 24 8) (v.extractLsb' 16 8) (v.extractLsb' 8 8) (v.extractLsb' 0 8) =
      v := by
  apply BitVec.eq_of_getLsbD_eq
  intro i hi
  simp only [wordOfBytes, BitVec.getLsbD_append, BitVec.getLsbD_extractLsb']
  have : i < 8 ∨ 8 ≤ i ∧ i < 16 ∨ 16 ≤ i ∧ i < 24 ∨ 24 ≤ i := by omega
  rcases this with h | ⟨h, h'⟩ | ⟨h, h'⟩ | h
  · simp [h]
  · simp [show ¬ i < 8 by omega, show i - 8 < 8 by omega, show 8 + (i - 8) = i by omega]
  · simp [show ¬ i < 8 by omega, show ¬ i - 8 < 8 by omega, show i - 8 - 8 < 8 by omega,
      show 16 + (i - 8 - 8) = i by omega]
  · simp [show ¬ i < 8 by omega, show ¬ i - 8 < 8 by omega, show ¬ i - 8 - 8 < 8 by omega,
      show i - 8 - 8 - 8 < 8 by omega, show 24 + (i - 8 - 8 - 8) = i by omega]

/-- Decoding a stream that begins with the bytes of a word. -/
theorem decode_bytesOfWord {w : Word} {i : Instr} (h : decodeWord w = .ok i) (rest : List Byte) :
    decode (bytesOfWord w ++ rest) = .ok (i, rest) := by
  simp [decode, bytesOfWord, h]

end Sys2Proof
end

