-- ==== Sys2Proof/Laws/State.lean ====
section
/-! SUPPORT. What each field of the state reads after each update. -/

namespace Sys2Proof.Machine

/-! ### Registers -/

theorem State.reg_setReg (s : State) (r q : Reg) (v : Word) :
    (s.setReg r v).reg q = if q = r then v else s.reg q := by
  simp only [State.reg, State.setReg, Fin.getElem_fin, Vector.getElem_set, Fin.ext_iff,
    eq_comm (a := q.val)]

@[simp] theorem State.reg_setReg_self (s : State) (r : Reg) (v : Word) :
    (s.setReg r v).reg r = v := by simp [State.reg_setReg]

@[simp] theorem State.reg_setReg_of_ne (s : State) {r q : Reg} (h : q ≠ r) (v : Word) :
    (s.setReg r v).reg q = s.reg q := by simp [State.reg_setReg, h]

@[simp] theorem State.setReg_cv (s : State) (r : Reg) (v : Word) : (s.setReg r v).cv = s.cv := rfl
@[simp] theorem State.setReg_callStack (s : State) (r : Reg) (v : Word) :
    (s.setReg r v).callStack = s.callStack := rfl
@[simp] theorem State.setReg_status (s : State) (r : Reg) (v : Word) :
    (s.setReg r v).status = s.status := rfl
@[simp] theorem State.setReg_mem (s : State) (r : Reg) (v : Word) : (s.setReg r v).mem = s.mem := rfl
@[simp] theorem State.setReg_code (s : State) (r : Reg) (v : Word) : (s.setReg r v).code = s.code := rfl

/-! ### The condition word -/

@[simp] theorem State.reg_setCv (s : State) (v : Word) (r : Reg) : (s.setCv v).reg r = s.reg r := rfl
@[simp] theorem State.setCv_regs (s : State) (v : Word) : (s.setCv v).regs = s.regs := rfl
@[simp] theorem State.setCv_cv (s : State) (v : Word) : (s.setCv v).cv = v := rfl
@[simp] theorem State.setCv_callStack (s : State) (v : Word) :
    (s.setCv v).callStack = s.callStack := rfl
@[simp] theorem State.setCv_status (s : State) (v : Word) : (s.setCv v).status = s.status := rfl
@[simp] theorem State.setCv_mem (s : State) (v : Word) : (s.setCv v).mem = s.mem := rfl
@[simp] theorem State.setCv_code (s : State) (v : Word) : (s.setCv v).code = s.code := rfl

@[simp] theorem State.reg_clearCv (s : State) (r : Reg) : s.clearCv.reg r = s.reg r := rfl
@[simp] theorem State.clearCv_regs (s : State) : s.clearCv.regs = s.regs := rfl
@[simp] theorem State.clearCv_cv (s : State) : s.clearCv.cv = 0 := rfl
@[simp] theorem State.clearCv_callStack (s : State) : s.clearCv.callStack = s.callStack := rfl
@[simp] theorem State.clearCv_status (s : State) : s.clearCv.status = s.status := rfl
@[simp] theorem State.clearCv_mem (s : State) : s.clearCv.mem = s.mem := rfl
@[simp] theorem State.clearCv_code (s : State) : s.clearCv.code = s.code := rfl

/-! ### Operands -/

@[simp] theorem State.src2_clearCv (s : State) (f : Fields) : s.clearCv.src2 f = s.src2 f := by
  unfold State.src2; cases f.src <;> rfl
@[simp] theorem State.src1_clearCv (s : State) (f : Fields) : s.clearCv.src1 f = s.src1 f := by
  unfold State.src1; cases f.src <;> rfl

/-- The second source in the record's own fields. -/
theorem State.src2_eq (s : State) (f : Fields) :
    s.src2 f = if f.immediate then f.value else s.reg f.ops2 := by
  unfold State.src2 Fields.immediate Fields.value Fields.ops2; cases f.src <;> rfl

/-- The source of `mov` and the effective address in the record's own fields. -/
theorem State.src1_eq (s : State) (f : Fields) :
    s.src1 f = if f.immediate then f.value else s.reg f.ops1 := by
  unfold State.src1 Fields.immediate Fields.value; cases f.src <;> rfl

/-! ### The call stack -/

@[simp] theorem State.reg_pushCall (s : State) (v : Word) (r : Reg) :
    (s.pushCall v).reg r = s.reg r := rfl
@[simp] theorem State.pushCall_cv (s : State) (v : Word) : (s.pushCall v).cv = s.cv := rfl
@[simp] theorem State.pushCall_callStack (s : State) (v : Word) :
    (s.pushCall v).callStack = v :: s.callStack := rfl
@[simp] theorem State.pushCall_status (s : State) (v : Word) : (s.pushCall v).status = s.status := rfl
@[simp] theorem State.pushCall_mem (s : State) (v : Word) : (s.pushCall v).mem = s.mem := rfl
@[simp] theorem State.pushCall_code (s : State) (v : Word) : (s.pushCall v).code = s.code := rfl

/-- Everything `CS.pop()` can answer. -/
theorem State.popCall_eq_some {s t : State} {v : Word} :
    s.popCall = some (v, t) ↔
      ∃ rest, s.callStack = v :: rest ∧ t = { s with callStack := rest } := by
  unfold State.popCall
  cases h : s.callStack <;> simp [eq_comm]

theorem State.popCall_eq_none {s : State} : s.popCall = none ↔ s.callStack = [] := by
  unfold State.popCall
  cases h : s.callStack <;> simp

theorem State.callStackFull_iff {s : State} :
    s.callStackFull = true ↔ Config.callStackMax ≤ s.callStack.length := by
  simp [State.callStackFull]

/-! ### Ends of the run -/

@[simp] theorem State.reg_raise (s : State) (e : RunError) (r : Reg) : (s.raise e).reg r = s.reg r := rfl
@[simp] theorem State.raise_cv (s : State) (e : RunError) : (s.raise e).cv = s.cv := rfl
@[simp] theorem State.raise_callStack (s : State) (e : RunError) :
    (s.raise e).callStack = s.callStack := rfl
@[simp] theorem State.raise_status (s : State) (e : RunError) : (s.raise e).status = .faulted e := rfl
@[simp] theorem State.raise_mem (s : State) (e : RunError) : (s.raise e).mem = s.mem := rfl
@[simp] theorem State.raise_code (s : State) (e : RunError) : (s.raise e).code = s.code := rfl

@[simp] theorem State.reg_haltRet (s : State) (r : Reg) : s.haltRet.reg r = s.reg r := rfl
@[simp] theorem State.haltRet_cv (s : State) : s.haltRet.cv = s.cv := rfl
@[simp] theorem State.haltRet_callStack (s : State) : s.haltRet.callStack = s.callStack := rfl
@[simp] theorem State.haltRet_status (s : State) : s.haltRet.status = .haltedRet := rfl
@[simp] theorem State.haltRet_mem (s : State) : s.haltRet.mem = s.mem := rfl
@[simp] theorem State.haltRet_code (s : State) : s.haltRet.code = s.code := rfl

@[simp] theorem State.reg_haltEnd (s : State) (r : Reg) : s.haltEnd.reg r = s.reg r := rfl
@[simp] theorem State.haltEnd_cv (s : State) : s.haltEnd.cv = s.cv := rfl
@[simp] theorem State.haltEnd_callStack (s : State) : s.haltEnd.callStack = s.callStack := rfl
@[simp] theorem State.haltEnd_status (s : State) : s.haltEnd.status = .haltedEnd := rfl
@[simp] theorem State.haltEnd_mem (s : State) : s.haltEnd.mem = s.mem := rfl
@[simp] theorem State.haltEnd_code (s : State) : s.haltEnd.code = s.code := rfl

/-! ### Phase P -/

@[simp] theorem State.advancePc_cv (s : State) (b : Word) : (s.advancePc b).cv = s.cv := by
  unfold State.advancePc; split <;> rfl
@[simp] theorem State.advancePc_callStack (s : State) (b : Word) :
    (s.advancePc b).callStack = s.callStack := by unfold State.advancePc; split <;> rfl
@[simp] theorem State.advancePc_status (s : State) (b : Word) :
    (s.advancePc b).status = s.status := by unfold State.advancePc; split <;> rfl
@[simp] theorem State.advancePc_mem (s : State) (b : Word) : (s.advancePc b).mem = s.mem := by
  unfold State.advancePc; split <;> rfl
@[simp] theorem State.advancePc_code (s : State) (b : Word) : (s.advancePc b).code = s.code := by
  unfold State.advancePc; split <;> rfl

theorem State.pc_eq_reg (s : State) : s.pc = s.reg 15 := rfl

/-- Where R15 stands after phase P. -/
@[simp] theorem State.advancePc_pc (s : State) (b : Word) :
    (s.advancePc b).reg 15 = if s.reg 15 = b then b + 1 else s.reg 15 := by
  unfold State.advancePc State.pc pcReg; split <;> simp_all

/-- Phase P writes no register but R15. -/
@[simp] theorem State.advancePc_reg (s : State) (b : Word) {r : Reg} (h : r ≠ 15) :
    (s.advancePc b).reg r = s.reg r := by
  unfold State.advancePc pcReg; split <;> simp_all

/-! ### Phase L -/

@[simp] theorem State.reg_latch (s : State) (m : Mode) (f : Fields) (r : Reg) :
    (s.latch m f).reg r = s.reg r := by unfold State.latch; cases m <;> simp only <;> split <;> rfl
@[simp] theorem State.latch_callStack (s : State) (m : Mode) (f : Fields) :
    (s.latch m f).callStack = s.callStack := by
  unfold State.latch; cases m <;> simp only <;> split <;> rfl
@[simp] theorem State.latch_status (s : State) (m : Mode) (f : Fields) :
    (s.latch m f).status = s.status := by
  unfold State.latch; cases m <;> simp only <;> split <;> rfl
@[simp] theorem State.latch_mem (s : State) (m : Mode) (f : Fields) :
    (s.latch m f).mem = s.mem := by unfold State.latch; cases m <;> simp only <;> split <;> rfl
@[simp] theorem State.latch_code (s : State) (m : Mode) (f : Fields) :
    (s.latch m f).code = s.code := by unfold State.latch; cases m <;> simp only <;> split <;> rfl

/-- What the S latch leaves in `cv`. -/
theorem State.latch_cv (s : State) (m : Mode) (f : Fields) :
    (s.latch m f).cv = if m ≠ .branching ∧ f.sFlag = true then s.reg f.dst else s.cv := by
  unfold State.latch; cases m <;> cases h : f.sFlag <;> simp

end Sys2Proof.Machine
end

