-- ==== Sys2Proof/Laws/Memory.lean ====
section
/-! SUPPORT. The laws of data memory: a read after a write, and that every operation keeps the canonical
form. -/

namespace Sys2Proof.Machine

/-! ### Bytes -/

theorem Memory.readByte_eq_reset {m : Memory} {a : Nat} (h : ∀ c ∈ m, c.1 ≠ a) :
    m.readByte a = Config.resetMemByte := by
  induction m with
  | nil => rfl
  | cons c rest ih =>
    obtain ⟨k, b⟩ := c
    rw [Memory.readByte, if_neg (h (k, b) (by simp)), ih fun c hc => h c (by simp [hc])]

/-- A cell of a sorted memory reads as it is listed. -/
theorem Memory.readByte_of_mem {m : Memory} (h : m.Pairwise fun x y => x.1 < y.1) {c : Host.Cell}
    (hc : c ∈ m) : m.readByte c.1 = c.2 := by
  induction m with
  | nil => simp at hc
  | cons d rest ih =>
    rw [List.pairwise_cons] at h
    rcases List.mem_cons.1 hc with rfl | hr
    · simp [Memory.readByte]
    · have := h.1 c hr
      rw [Memory.readByte, if_neg (by omega), ih h.2 hr]

/-- A read after a write of one byte. -/
theorem Memory.readByte_writeByte {m : Memory} (h : m.Pairwise fun x y => x.1 < y.1) (a b : Nat)
    (v : Byte) : (m.writeByte a v).readByte b = if b = a then v else m.readByte b := by
  induction m with
  | nil =>
    by_cases hv : v = Config.resetMemByte <;> by_cases hb : b = a <;>
      simp [Memory.writeByte, Memory.readByte, hv, hb, eq_comm (a := a)]
  | cons c rest ih =>
    obtain ⟨k, w⟩ := c
    rw [List.pairwise_cons] at h
    have ih := ih h.2
    have later : a ≤ k → Memory.readByte rest a = Config.resetMemByte := fun hk =>
      Memory.readByte_eq_reset fun c hc => by have : k < c.1 := h.1 c hc; omega
    rcases lt_trichotomy a k with hak | rfl | hak
    · by_cases hv : v = Config.resetMemByte <;> by_cases hb : b = a <;>
        simp [Memory.writeByte, Memory.readByte, hak, hak.ne', hv, hb, eq_comm (a := a), later hak.le]
    · by_cases hv : v = Config.resetMemByte <;> by_cases hb : b = a <;>
        simp [Memory.writeByte, Memory.readByte, hv, hb, eq_comm (a := a), later le_rfl]
    · rw [Memory.writeByte, if_neg (by omega), if_neg (by omega)]
      by_cases hb : b = a
      · subst hb; simp [Memory.readByte, ih, show k ≠ b by omega]
      · simp [Memory.readByte, ih, hb]

/-- Where the cells of a memory after a write come from. -/
theorem Memory.mem_writeByte {m : Memory} {a : Nat} {v : Byte} {c : Host.Cell}
    (h : c ∈ m.writeByte a v) : c ∈ m ∨ c = (a, v) ∧ v ≠ Config.resetMemByte := by
  induction m with
  | nil =>
    by_cases hv : v = Config.resetMemByte <;> simp [Memory.writeByte, hv] at h
    exact .inr ⟨h, hv⟩
  | cons d rest ih =>
    obtain ⟨k, w⟩ := d
    unfold Memory.writeByte at h
    split at h
    · split at h
      · exact .inl h
      · rcases List.mem_cons.1 h with rfl | h
        · exact .inr ⟨rfl, by assumption⟩
        · exact .inl h
    · split at h
      · split at h
        · exact .inl (by simp [h])
        · rcases List.mem_cons.1 h with rfl | h
          · exact .inr ⟨rfl, by assumption⟩
          · exact .inl (by simp [h])
      · rcases List.mem_cons.1 h with rfl | h
        · simp
        · rcases ih h with h | h
          · exact .inl (by simp [h])
          · exact .inr h

theorem Memory.writeByte_sorted {m : Memory} (h : m.Pairwise fun x y => x.1 < y.1) (a : Nat)
    (v : Byte) : (m.writeByte a v).Pairwise fun x y => x.1 < y.1 := by
  induction m with
  | nil => by_cases hv : v = Config.resetMemByte <;> simp [Memory.writeByte, hv]
  | cons d rest ih =>
    obtain ⟨k, w⟩ := d
    have hd := List.pairwise_cons.1 h
    unfold Memory.writeByte
    split
    · split
      · exact h
      · refine List.pairwise_cons.2 ⟨fun c hc => ?_, h⟩
        rcases List.mem_cons.1 hc with rfl | hc
        · assumption
        · have := hd.1 c hc; simp at this ⊢; omega
    · split
      · subst_vars
        split
        · exact hd.2
        · exact List.pairwise_cons.2 ⟨hd.1, hd.2⟩
      · refine List.pairwise_cons.2 ⟨fun c hc => ?_, ih hd.2⟩
        rcases Memory.mem_writeByte hc with hc | ⟨rfl, -⟩
        · exact hd.1 c hc
        · simp; omega

/-- A write of a byte inside the memory keeps the canonical form. -/
theorem Memory.writeByte_wf {m : Memory} (h : m.wf) {a : Nat} (ha : a < 4 * Config.stackSize)
    (v : Byte) : (m.writeByte a v).wf := by
  refine ⟨Memory.writeByte_sorted h.1 a v, fun c hc => ?_⟩
  rcases Memory.mem_writeByte hc with hc | ⟨rfl, hv⟩
  · exact h.2 c hc
  · exact ⟨ha, hv⟩

/-- In canonical form, memories that read alike are equal. -/
theorem Memory.ext_of_readByte {m n : Memory} (hm : m.wf) (hn : n.wf)
    (h : ∀ a, m.readByte a = n.readByte a) : m = n := by
  have key : ∀ {m n : Memory}, m.wf → n.wf → (∀ a, m.readByte a = n.readByte a) →
      ∀ c ∈ m, c ∈ n := by
    intro m n hm hn h c hc
    by_contra hcn
    have h1 := Memory.readByte_of_mem hm.1 hc
    by_cases hk : ∃ d ∈ n, d.1 = c.1
    · obtain ⟨d, hd, hdc⟩ := hk
      have h2 := Memory.readByte_of_mem hn.1 hd
      have : d = c := Prod.ext hdc (by rw [← h2, hdc, ← h, h1])
      exact hcn (this ▸ hd)
    · have h2 : n.readByte c.1 = Config.resetMemByte :=
        Memory.readByte_eq_reset fun d hd hdc => hk ⟨d, hd, hdc⟩
      exact (hm.2 c hc).2 (by rw [← h1, h, h2])
  have sorted : ∀ {m : Memory}, m.wf → m.Pairwise fun x y => x.1 < y.1 := fun h => h.1
  refine List.Perm.eq_of_pairwise (le := fun x y : Host.Cell => x.1 < y.1)
    (fun a b _ _ hab hba => absurd hab (by omega)) (sorted hm) (sorted hn) ?_
  have nodup : ∀ {m : Memory}, m.wf → m.Nodup := fun h =>
    h.1.imp fun {a b} hab he => by subst he; omega
  exact (List.perm_ext_iff_of_nodup (nodup hm) (nodup hn)).2 fun c =>
    ⟨key hm hn h c, key hn hm (fun a => (h a).symm) c⟩

/-! ### Words -/

/-- A word nothing has written reads as its reset value. -/
@[simp] theorem Memory.readWord_nil (a : Nat) : Memory.readWord [] a = 0 := by
  simp [Memory.readWord, Memory.readByte, Config.resetMemByte, wordOfBytes]

theorem Memory.writeWord_sorted {m : Memory} (h : m.Pairwise fun x y => x.1 < y.1) (a : Nat)
    (v : Word) : (m.writeWord a v).Pairwise fun x y => x.1 < y.1 :=
  Memory.writeByte_sorted (Memory.writeByte_sorted (Memory.writeByte_sorted
    (Memory.writeByte_sorted h _ _) _ _) _ _) _ _

/-- A write of a word inside the memory keeps the canonical form. -/
theorem Memory.writeWord_wf {m : Memory} (h : m.wf) {a : Nat} (ha : a < Config.stackSize)
    (v : Word) : (m.writeWord a v).wf :=
  Memory.writeByte_wf (Memory.writeByte_wf (Memory.writeByte_wf (Memory.writeByte_wf h
    (by omega) _) (by omega) _) (by omega) _) (by omega) _

/-- Every byte outside the four of the word written reads as before. -/
theorem Memory.readByte_writeWord_of_ne {m : Memory} (h : m.Pairwise fun x y => x.1 < y.1)
    (a : Nat) (v : Word) {b : Nat} (hb : b < 4 * a ∨ 4 * a + 4 ≤ b) :
    (m.writeWord a v).readByte b = m.readByte b := by
  have h1 := Memory.writeByte_sorted h (4 * a) (v.extractLsb' 24 8)
  have h2 := Memory.writeByte_sorted h1 (4 * a + 1) (v.extractLsb' 16 8)
  have h3 := Memory.writeByte_sorted h2 (4 * a + 2) (v.extractLsb' 8 8)
  unfold Memory.writeWord
  rw [Memory.readByte_writeByte h3, Memory.readByte_writeByte h2, Memory.readByte_writeByte h1,
    Memory.readByte_writeByte h, if_neg (by omega), if_neg (by omega), if_neg (by omega),
    if_neg (by omega)]

/-- A read of a word after a write of a word. -/
theorem Memory.readWord_writeWord {m : Memory} (h : m.Pairwise fun x y => x.1 < y.1) (a b : Nat)
    (v : Word) : (m.writeWord a v).readWord b = if b = a then v else m.readWord b := by
  by_cases hb : b = a
  · subst hb
    have h1 := Memory.writeByte_sorted h (4 * b) (v.extractLsb' 24 8)
    have h2 := Memory.writeByte_sorted h1 (4 * b + 1) (v.extractLsb' 16 8)
    have h3 := Memory.writeByte_sorted h2 (4 * b + 2) (v.extractLsb' 8 8)
    rw [if_pos rfl]
    unfold Memory.readWord Memory.writeWord
    simp only [Memory.readByte_writeByte h3, Memory.readByte_writeByte h2,
      Memory.readByte_writeByte h1, Memory.readByte_writeByte h]
    simp
  · rw [if_neg hb]
    unfold Memory.readWord
    rw [Memory.readByte_writeWord_of_ne h a v (by omega),
      Memory.readByte_writeWord_of_ne h a v (by omega),
      Memory.readByte_writeWord_of_ne h a v (by omega),
      Memory.readByte_writeWord_of_ne h a v (by omega)]

/-! ### The accesses of the machine -/

/-- Everything `MemRead` can answer. -/
theorem State.memRead_eq (s : State) (a : Word) :
    s.memRead a =
      if a.toNat < Config.stackSize then some (s.mem.readWord a.toNat) else none := by
  simp [State.memRead, inRange]

/-- Everything `MemWrite` can answer. -/
theorem State.memWrite_eq (s : State) (a v : Word) :
    s.memWrite a v =
      if a.toNat < Config.stackSize then some { s with mem := s.mem.writeWord a.toNat v }
      else none := by
  simp [State.memWrite, inRange]

theorem State.memWrite_eq_some {s t : State} {a v : Word} :
    s.memWrite a v = some t ↔
      a.toNat < Config.stackSize ∧ t = { s with mem := s.mem.writeWord a.toNat v } := by
  rw [State.memWrite_eq]; split <;> simp_all [eq_comm]

/-- `MemWrite` keeps the canonical form of the memory. -/
theorem State.memWrite_wf {s t : State} {a v : Word} (hs : s.mem.wf) (h : s.memWrite a v = some t) :
    t.mem.wf := by
  obtain ⟨ha, rfl⟩ := State.memWrite_eq_some.1 h
  exact Memory.writeWord_wf hs ha v

/-- The memory after reset is in canonical form. -/
theorem State.reset_mem_wf : State.reset.mem.wf := by
  simp [State.reset, Memory.wf]

end Sys2Proof.Machine
end

