-- ==== Sys2Proof/Laws/PerInstr.lean ====
section
/-! SUPPORT. Statements made per instruction, one lemma per constructor: writing 0 into the fields an
instruction does not use (spec/30_encoding.md R81, R83, R84). -/

namespace Sys2Proof.Laws.Canonical

/-- An instruction some word decodes to is canonical once its unused fields are 0, and a canonical one
is left as it is. -/
def Statement (i : Instr) : Prop :=
  (i.wellFormed = true → i.canonicalize.canonical = true) ∧
    (i.canonical = true → i.canonicalize = i)

/-- Where no field is unused, nothing changes. -/
theorem of_fixed {i : Instr} (h : i.canonicalize = i) (hu : i.unusedZero = true) : Statement i := by
  refine ⟨fun hw => ?_, fun _ => h⟩
  rw [h, Instr.canonical, hw, hu]; rfl

theorem mov (f : Fields) : Statement (.mov f) := by
  obtain ⟨c, s, d, a, src⟩ := f
  cases src <;>
    simp +contextual [Statement, Instr.canonical, Instr.wellFormed, Instr.unusedZero,
      Fields.oneSourceCanonical, Instr.canonicalize, Instr.canonicalize.oneSource, Instr.fields,
      Src2.wellFormed]

theorem add (f : Fields) : Statement (.add f) := of_fixed rfl rfl

theorem sub (f : Fields) : Statement (.sub f) := of_fixed rfl rfl

theorem rsb (f : Fields) : Statement (.rsb f) := of_fixed rfl rfl

theorem mul (f : Fields) : Statement (.mul f) := of_fixed rfl rfl

theorem div (f : Fields) : Statement (.div f) := of_fixed rfl rfl

theorem and (f : Fields) : Statement (.and f) := of_fixed rfl rfl

theorem xor (f : Fields) : Statement (.xor f) := of_fixed rfl rfl

theorem orr (f : Fields) : Statement (.orr f) := of_fixed rfl rfl

theorem lsl (f : Fields) : Statement (.lsl f) := of_fixed rfl rfl

theorem lsr (f : Fields) : Statement (.lsr f) := of_fixed rfl rfl

theorem cmp (f : Fields) : Statement (.cmp f) := by
  obtain ⟨c, s, d, a, src⟩ := f
  simp +contextual [Statement, Instr.canonical, Instr.wellFormed, Instr.unusedZero,
    Instr.canonicalize, Instr.fields, Src2.wellFormed]

theorem ldm (f : Fields) : Statement (.ldm f) := by
  obtain ⟨c, s, d, a, src⟩ := f
  cases src <;>
    simp +contextual [Statement, Instr.canonical, Instr.wellFormed, Instr.unusedZero,
      Fields.oneSourceCanonical, Instr.canonicalize, Instr.canonicalize.oneSource, Instr.fields,
      Src2.wellFormed]

theorem stm (f : Fields) : Statement (.stm f) := by
  obtain ⟨c, s, d, a, src⟩ := f
  cases src <;>
    simp +contextual [Statement, Instr.canonical, Instr.wellFormed, Instr.unusedZero,
      Fields.oneSourceCanonical, Instr.canonicalize, Instr.canonicalize.oneSource, Instr.fields,
      Src2.wellFormed]

theorem call (f : Fields) : Statement (.call f) := by
  obtain ⟨c, s, d, a, src⟩ := f
  cases src <;>
    simp +contextual [Statement, Instr.canonical, Instr.wellFormed, Instr.unusedZero,
      Instr.canonicalize, Instr.fields, Fields.immediate, Src2.wellFormed]

theorem ret (f : Fields) : Statement (.ret f) := by
  obtain ⟨c, s, d, a, src⟩ := f
  simp +contextual [Statement, Instr.canonical, Instr.wellFormed, Instr.unusedZero,
    Instr.canonicalize, Instr.fields, Src2.wellFormed]

end Sys2Proof.Laws.Canonical
end

