-- ==== Sys2Proof/Laws/Phases.lean ====
section
/-! SUPPORT. What phase X of each instruction can do, said once per operation, and what `exec` and `step`
can answer. -/

namespace Sys2Proof.Machine

/-! ### Phase X -/

/-- Phase X of an instruction, by name. -/
def effect : Instr → State → Effect
  | .mov f, s  => effectMov f s
  | .add f, s  => writeAlu aluAdd f s
  | .sub f, s  => writeAlu aluSub f s
  | .rsb f, s  => writeAlu aluRsb f s
  | .mul f, s  => writeAlu aluMul f s
  | .div f, s  => effectDiv f s
  | .and f, s  => writeAlu aluAnd f s
  | .xor f, s  => writeAlu aluXor f s
  | .orr f, s  => writeAlu aluOrr f s
  | .lsl f, s  => writeAlu aluLsl f s
  | .lsr f, s  => writeAlu aluLsr f s
  | .cmp f, s  => effectCmp f s
  | .ldm f, s  => effectLdm f s
  | .stm f, s  => effectStm f s
  | .call f, s => effectCall f s
  | .ret _, s  => effectRet s

/-- Every instruction is the common phases around its own phase X. -/
theorem exec_eq_runPhases (i : Instr) (s : State) :
    exec i s = runPhases i.op i.fields (effect i) s := by
  cases i <;> rfl

/-- `div`: the error exactly on a zero second source. -/
theorem effectDiv_eq (f : Fields) (s : State) :
    effectDiv f s = if s.src2 f = 0 then .raised (.divisionByZero .div)
      else .normal (s.setReg f.dst (aluDiv (s.reg f.ops1) (s.src2 f))) := rfl

/-- `ldm`: the word, or the range error. -/
theorem effectLdm_eq (f : Fields) (s : State) :
    effectLdm f s = if (s.src1 f).toNat < Config.stackSize
      then .normal (s.setReg f.dst (s.mem.readWord (s.src1 f).toNat))
      else .raised (.memoryOutOfRange .ldm (s.src1 f)) := by
  unfold effectLdm
  rw [State.memRead_eq]
  split <;> rename_i h <;> split at h <;> simp_all

/-- `stm`: the store, or the range error. -/
theorem effectStm_eq (f : Fields) (s : State) :
    effectStm f s = if (s.src1 f).toNat < Config.stackSize
      then .normal { s with mem := s.mem.writeWord (s.src1 f).toNat (s.reg f.dst) }
      else .raised (.memoryOutOfRange .stm (s.src1 f)) := by
  unfold effectStm
  rw [State.memWrite_eq]
  split <;> rename_i h <;> split at h <;> simp_all

/-- `call`: the push and the jump, or the overflow. -/
theorem effectCall_eq (f : Fields) (s : State) :
    effectCall f s = if Config.callStackMax ≤ s.callStack.length
      then .raised (.callStackOverflow .call)
      else .normal ((s.pushCall (s.reg 15 + 1)).setReg 15 f.value) := by
  unfold effectCall
  simp only [State.callStackFull_iff]; rfl

/-- `ret` on an empty call stack. -/
theorem effectRet_nil {s : State} (h : s.callStack = []) : effectRet s = .haltedRet := by
  simp [effectRet, State.popCall, h]

/-- `ret` with an entry to pop. -/
theorem effectRet_cons {s : State} {v : Word} {rest : List Word} (h : s.callStack = v :: rest) :
    effectRet s = .normal ({ s with callStack := rest }.setReg 15 v) := by
  simp [effectRet, State.popCall, h, pcReg]

/-- Everything a phase X that ends normally has done: the destination or R15 written at most, memory
written by `stm` alone and inside the range, the call stack grown by `call` below its bound or cut by
`ret`, `cv` written by `cmp` alone. -/
theorem effect_normal {i : Instr} {s u : State} (h : effect i s = .normal u) :
    u.status = s.status ∧ u.code = s.code ∧
    (∀ r, r ≠ i.fields.dst → r ≠ 15 → u.reg r = s.reg r) ∧
    (u.cv = s.cv ∨ i.op = .cmp) ∧
    (u.mem = s.mem ∨
      i.op = .stm ∧ ∃ a v, a < Config.stackSize ∧ u.mem = s.mem.writeWord a v) ∧
    (u.callStack = s.callStack ∨
      i.op = .call ∧ (∃ v, u.callStack = v :: s.callStack) ∧
        s.callStack.length < Config.callStackMax ∨
      i.op = .ret ∧ ∃ v, s.callStack = v :: u.callStack) := by
  cases i with
  | ldm f =>
    rw [effect, effectLdm_eq] at h
    split at h <;> cases h
    simp +contextual [Instr.fields]
  | stm f =>
    rw [effect, effectStm_eq] at h
    split at h <;> cases h
    refine ⟨rfl, rfl, fun r _ _ => rfl, .inl rfl, .inr ⟨rfl, _, _, ‹_›, rfl⟩, .inl rfl⟩
  | call f =>
    rw [effect, effectCall_eq] at h
    split at h <;> cases h
    simp +contextual [Instr.op]; omega
  | ret f =>
    rw [effect] at h
    cases hc : s.callStack with
    | nil => rw [effectRet_nil hc] at h; cases h
    | cons v rest =>
      rw [effectRet_cons hc] at h
      cases h
      simp +contextual [Instr.op]; intros; rfl
  | div f =>
    rw [effect, effectDiv_eq] at h
    split at h <;> cases h
    simp +contextual [Instr.fields]
  | cmp f =>
    cases h; simp +contextual [Instr.op]
  | _ f => cases h; simp +contextual [Instr.fields]

/-- Which instruction raises which error, and when. -/
theorem effect_raised {i : Instr} {s : State} {e : RunError} (h : effect i s = .raised e) :
    (∃ f, i = .div f ∧ s.src2 f = 0 ∧ e = .divisionByZero .div) ∨
    (∃ f, i = .ldm f ∧ Config.stackSize ≤ (s.src1 f).toNat ∧ e = .memoryOutOfRange .ldm (s.src1 f)) ∨
    (∃ f, i = .stm f ∧ Config.stackSize ≤ (s.src1 f).toNat ∧ e = .memoryOutOfRange .stm (s.src1 f)) ∨
    (∃ f, i = .call f ∧ Config.callStackMax ≤ s.callStack.length ∧ e = .callStackOverflow .call) := by
  cases i with
  | ldm f =>
    rw [effect, effectLdm_eq] at h
    split at h <;> cases h
    exact .inr (.inl ⟨f, rfl, by omega, rfl⟩)
  | stm f =>
    rw [effect, effectStm_eq] at h
    split at h <;> cases h
    exact .inr (.inr (.inl ⟨f, rfl, by omega, rfl⟩))
  | call f =>
    rw [effect, effectCall_eq] at h
    split at h <;> cases h
    exact .inr (.inr (.inr ⟨f, rfl, by omega, rfl⟩))
  | ret f =>
    rw [effect] at h
    cases hc : s.callStack with
    | nil => rw [effectRet_nil hc] at h; cases h
    | cons v rest => rw [effectRet_cons hc] at h; cases h
  | div f =>
    rw [effect, effectDiv_eq] at h
    split at h <;> cases h
    exact .inl ⟨f, rfl, ‹_›, rfl⟩
  | _ f => cases h

/-- Only `ret` on an empty call stack halts. -/
theorem effect_haltedRet {i : Instr} {s : State} (h : effect i s = .haltedRet) :
    (∃ f, i = .ret f) ∧ s.callStack = [] := by
  cases i with
  | ldm f => rw [effect, effectLdm_eq] at h; split at h <;> cases h
  | stm f => rw [effect, effectStm_eq] at h; split at h <;> cases h
  | call f => rw [effect, effectCall_eq] at h; split at h <;> cases h
  | ret f =>
    cases hc : s.callStack with
    | nil => exact ⟨⟨f, rfl⟩, rfl⟩
    | cons v rest => rw [effect, effectRet_cons hc] at h; cases h
  | div f => rw [effect, effectDiv_eq] at h; split at h <;> cases h
  | _ f => cases h

/-! ### The whole instruction -/

/-- A skipped instruction. -/
theorem exec_of_skips {i : Instr} {s : State} (h : skips i.fields.cond s.cv = true) :
    exec i s = .next (s.clearCv.advancePc (s.reg 15)) := by
  rw [exec_eq_runPhases, runPhases, if_pos h]; rfl

/-- An executed instruction. -/
theorem exec_of_not_skips {i : Instr} {s : State} (h : skips i.fields.cond s.cv = false) :
    exec i s =
      .next (finish i.op.mode i.fields (s.reg 15) s.clearCv (effect i s.clearCv)) := by
  rw [exec_eq_runPhases, runPhases, if_neg (by simp [h])]; rfl

/-- Everything `exec` can answer: a next state, after a skip, a normal end, an error or the halt. -/
theorem exec_cases {i : Instr} {s t : State} (h : exec i s = .next t) :
    (skips i.fields.cond s.cv = true ∧ t = s.clearCv.advancePc (s.reg 15)) ∨
    (skips i.fields.cond s.cv = false ∧
      ((∃ u, effect i s.clearCv = .normal u ∧
          t = (u.latch i.op.mode i.fields).advancePc (s.reg 15)) ∨
        (∃ e, effect i s.clearCv = .raised e ∧ t = s.clearCv.raise e) ∨
        (effect i s.clearCv = .haltedRet ∧ t = s.clearCv.haltRet))) := by
  cases hs : skips i.fields.cond s.cv with
  | true =>
    rw [exec_of_skips hs] at h
    exact .inl ⟨rfl, by cases h; rfl⟩
  | false =>
    rw [exec_of_not_skips hs] at h
    cases h
    refine .inr ⟨rfl, ?_⟩
    cases effect i s.clearCv with
    | normal u => exact .inl ⟨u, rfl, rfl⟩
    | raised e => exact .inr (.inl ⟨e, rfl, rfl⟩)
    | haltedRet => exact .inr (.inr ⟨rfl, rfl⟩)

/-- No instruction faults the model and none is refused. -/
theorem exec_next (i : Instr) (s : State) : ∃ t, exec i s = .next t := by
  cases hs : skips i.fields.cond s.cv with
  | true => exact ⟨_, exec_of_skips hs⟩
  | false => exact ⟨_, exec_of_not_skips hs⟩

/-! ### The code store -/

/-- Phase X neither reads nor writes the code store. -/
theorem effect_setCode (i : Instr) (s : State) (c : List Byte) :
    effect i { s with code := c } =
      match effect i s with
      | .normal u => .normal { u with code := c }
      | .raised e => .raised e
      | .haltedRet => .haltedRet := by
  have h1 : ∀ f, State.src1 { s with code := c } f = s.src1 f := fun f => by
    unfold State.src1; cases f.src <;> rfl
  have h2 : ∀ f, State.src2 { s with code := c } f = s.src2 f := fun f => by
    unfold State.src2; cases f.src <;> rfl
  cases i with
  | mov f => simp only [effect, effectMov, h1]; rfl
  | div f => simp only [effect, effectDiv_eq, h2]; split <;> rfl
  | ldm f => simp only [effect, effectLdm_eq, h1]; split <;> rfl
  | stm f => simp only [effect, effectStm_eq, h1]; split <;> rfl
  | call f => simp only [effect, effectCall_eq]; split <;> rfl
  | ret f =>
    obtain ⟨regs, cv, cs, status, mem, code⟩ := s
    cases cs <;> rfl
  | cmp f => rfl
  | _ f => simp only [effect, writeAlu, h2]; rfl

theorem State.advancePc_setCode (s : State) (b : Word) (c : List Byte) :
    State.advancePc { s with code := c } b = { s.advancePc b with code := c } := by
  unfold State.advancePc State.pc State.reg; split <;> rfl

theorem State.latch_setCode (s : State) (m : Mode) (f : Fields) (c : List Byte) :
    State.latch { s with code := c } m f = { s.latch m f with code := c } := by
  unfold State.latch; cases m <;> simp only <;> split <;> rfl

/-- An instruction neither reads nor writes the code store. -/
theorem exec_setCode {i : Instr} {s t : State} (h : exec i s = .next t) (c : List Byte) :
    exec i { s with code := c } = .next { t with code := c } := by
  rcases exec_cases h with ⟨hs, rfl⟩ | ⟨hs, h⟩
  · exact (exec_of_skips (s := { s with code := c }) hs).trans
      (congrArg _ (State.advancePc_setCode s.clearCv _ c))
  · refine (exec_of_not_skips (s := { s with code := c }) hs).trans ?_
    have he : effect i (State.clearCv { s with code := c }) = _ := effect_setCode i s.clearCv c
    rw [he]
    rcases h with ⟨u, hu, rfl⟩ | ⟨e, he, rfl⟩ | ⟨he, rfl⟩
    · simp only [hu, finish, State.latch_setCode, State.advancePc_setCode]; rfl
    · simp only [he]; rfl
    · simp only [he]; rfl

/-! ### The step -/

/-- The word in a slot, where the bytes of the code are known. -/
theorem codeWord_append (pre rest : List Byte) (slot : Nat) (b0 b1 b2 b3 : Byte)
    (h : pre.length = 4 * slot) :
    codeWord (pre ++ b0 :: b1 :: b2 :: b3 :: rest) slot = wordOfBytes b0 b1 b2 b3 := by
  simp [codeWord, ← h]

/-- Everything a step can have done when it answers a next state. -/
theorem step_cases {s t : State} (h : step s = .next t) :
    s.status = .running ∧ s.code.length % 4 = 0 ∧
    ((s.nslot ≤ (s.reg 15).toNat ∧ t = s.haltEnd) ∨
      ((s.reg 15).toNat < s.nslot ∧
        ((∃ i, decodeWord (codeWord s.code (s.reg 15).toNat) = .ok i ∧ exec i s = .next t) ∨
          (∃ e, decodeWord (codeWord s.code (s.reg 15).toNat) = .error e ∧
            t = s.raise (.invalidOpcode (codeWord s.code (s.reg 15).toNat)))))) := by
  unfold step fetchInstr at h
  cases hs : s.status with
  | running =>
    simp only [hs] at h
    by_cases hl : s.code.length % 4 = 0
    · refine ⟨rfl, hl, ?_⟩
      rw [if_pos hl, fetchPhase] at h
      by_cases hn : s.nslot ≤ s.pc.toNat
      · rw [if_pos hn] at h
        exact .inl ⟨hn, by cases h; rfl⟩
      · rw [if_neg hn, decodePhase] at h
        refine .inr ⟨by simpa [State.pc_eq_reg] using hn, ?_⟩
        rw [State.pc_eq_reg] at h
        cases hd : decodeWord (codeWord s.code (s.reg 15).toNat) with
        | ok i => rw [hd] at h; exact .inl ⟨i, rfl, h⟩
        | error e => rw [hd] at h; exact .inr ⟨e, rfl, by cases h; rfl⟩
    · rw [if_neg hl] at h; cases h
  | haltedEnd => simp [hs] at h
  | haltedRet => simp [hs] at h
  | faulted e => simp [hs] at h

/-- What a step does with a slot that holds an instruction. -/
theorem step_of_decode {s : State} {i : Instr} (hs : s.status = .running)
    (hl : s.code.length % 4 = 0) (hn : (s.reg 15).toNat < s.nslot)
    (hd : decodeWord (codeWord s.code (s.reg 15).toNat) = .ok i) : step s = exec i s := by
  have : ¬ s.nslot ≤ (s.reg 15).toNat := by omega
  simp [step, fetchInstr, hs, hl, fetchPhase, State.pc_eq_reg, this, decodePhase, hd]

/-- What a step does with a slot that holds a reserved encoding. -/
theorem step_of_invalid {s : State} {e : DecodeError} (hs : s.status = .running)
    (hl : s.code.length % 4 = 0) (hn : (s.reg 15).toNat < s.nslot)
    (hd : decodeWord (codeWord s.code (s.reg 15).toNat) = .error e) :
    step s = .next (s.raise (.invalidOpcode (codeWord s.code (s.reg 15).toNat))) := by
  have : ¬ s.nslot ≤ (s.reg 15).toNat := by omega
  simp [step, fetchInstr, hs, hl, fetchPhase, State.pc_eq_reg, this, decodePhase, hd]

/-- What a step does at or past the end of the code. -/
theorem step_of_end {s : State} (hs : s.status = .running) (hl : s.code.length % 4 = 0)
    (hn : s.nslot ≤ (s.reg 15).toNat) : step s = .next s.haltEnd := by
  simp [step, fetchInstr, hs, hl, fetchPhase, State.pc_eq_reg, hn]

end Sys2Proof.Machine
end

