-- ==== Sys2Proof/Tests/Slice0.lean ====
section
/-! SUPPORT. The model's own tests. The expected values are those of spec/95_test_vectors.md (named by their
V- numbers) or worked out by hand from the rule named. The theorems `test_witness_…` show, for a statement with
hypotheses, a concrete state and operands that meet them, one for each clause. -/

namespace Sys2Proof.Tests

open Machine Claims

/-! ### Helpers -/

/-- The reset state with some registers set. -/
def start (rs : List (Reg × Word)) : State := rs.foldl (fun s p => s.setReg p.1 p.2) State.reset

/-- The reset state with a memory word set. -/
def startMem (rs : List (Reg × Word)) (a : Nat) (v : Word) : State :=
  { start rs with mem := Memory.writeWord [] a v }

/-- The state after one step that runs the word `w`, if there is one. -/
def after (s : State) (w : Nat) : Option State :=
  match step (s.withFetchWord 32 w) with
  | .next t => some t
  | .fault _ => none
  | .refused _ => none

/-- What `g` reads from the state after one step that runs the word `w`. -/
def see {α : Type} (s : State) (w : Nat) (g : State → α) : Option α := (after s w).map g

/-- Unconditional fields without the S flag. -/
def plain (d a : Reg) (src : Src2) : Fields := ⟨.al, false, d, a, src⟩

/-! ### WellFormed: an ill-formed term for each check -/

/-- V-IMM-37, V-IMM-38, V-IMM-40: constants no word can hold. -/
theorem test_wellFormed_refuses_unencodable :
    (Instr.mov (plain 0 0 (.imm 257))).wellFormed = false ∧
    (Instr.add (plain 0 0 (.imm 510))).wellFormed = false ∧
    (Instr.ret (plain 0 0 (.imm 0xFFFFFFFF))).wellFormed = false := by decide

/-- R92: `call` with a register source. -/
theorem test_wellFormed_refuses_call_without_immediate :
    (Instr.call (plain 0 0 (.reg 0))).wellFormed = false ∧
    (Instr.call (plain 0 0 (.imm 4))).wellFormed = true := by decide

/-- R81: well-formed records with something in an unused field. -/
theorem test_canonical_refuses_used_unused_fields :
    (Instr.mov (plain 0 1 (.reg 2))).canonical = false ∧
    (Instr.mov (plain 0 1 (.imm 2))).canonical = false ∧
    (Instr.ldm (plain 0 1 (.reg 2))).canonical = false ∧
    (Instr.stm (plain 0 1 (.imm 2))).canonical = false ∧
    (Instr.cmp (plain 0 1 (.imm 0))).canonical = false ∧
    (Instr.call (plain 1 0 (.imm 0))).canonical = false ∧
    (Instr.call (plain 0 1 (.imm 0))).canonical = false ∧
    (Instr.ret (plain 0 0 (.imm 0))).canonical = false ∧
    (Instr.ret (plain 1 0 (.reg 0))).canonical = false ∧
    (Instr.ret (plain 0 1 (.reg 0))).canonical = false := by decide

/-! ### Decoding: every constructor from a word written out by the layout of R71 -/

/-- `mov r3 r4` and `mov r3 #256` (R141). -/
theorem test_decode_mov :
    decodeTableWord 32 0x00034000 = some (.mov (plain 3 4 (.reg 0))) ∧
    decodeTableWord 32 0x01030C01 = some (.mov (plain 3 0 (.imm 256))) := by decide

/-- `add r0 r1 r2` and `add r0 r1 #7` (R142). -/
theorem test_decode_add :
    decodeTableWord 32 0x00101200 = some (.add (plain 0 1 (.reg 2))) ∧
    decodeTableWord 32 0x01101007 = some (.add (plain 0 1 (.imm 7))) := by decide

/-- `subs r1 r1 #1` (V-DEC-3). -/
theorem test_decode_sub :
    decodeTableWord 32 0x09211001 = some (.sub ⟨.al, true, 1, 1, .imm 1⟩) := by decide

/-- `rsb r0 r0 #2` (R144). -/
theorem test_decode_rsb : decodeTableWord 32 0x01300002 = some (.rsb (plain 0 0 (.imm 2))) := by decide

/-- `mul r0 r1 r2` (R145). -/
theorem test_decode_mul : decodeTableWord 32 0x00401200 = some (.mul (plain 0 1 (.reg 2))) := by decide

/-- `div r0 r1 r2` (R146). -/
theorem test_decode_div : decodeTableWord 32 0x00501200 = some (.div (plain 0 1 (.reg 2))) := by decide

/-- `and r0 r1 r2` (R147). -/
theorem test_decode_and : decodeTableWord 32 0x00601200 = some (.and (plain 0 1 (.reg 2))) := by decide

/-- `xor r0 r0 #1` (R148). -/
theorem test_decode_xor : decodeTableWord 32 0x01700001 = some (.xor (plain 0 0 (.imm 1))) := by decide

/-- `orr r0 r1 r2` (R149). -/
theorem test_decode_orr : decodeTableWord 32 0x00801200 = some (.orr (plain 0 1 (.reg 2))) := by decide

/-- `lsl r0 r1 r2` (spec/95_test_vectors.md section 2.7). -/
theorem test_decode_lsl : decodeTableWord 32 0x00901200 = some (.lsl (plain 0 1 (.reg 2))) := by decide

/-- S and a condition together, with the immediate C000003F (V-DEC-12). -/
theorem test_decode_lsr :
    decodeTableWord 32 0x49A3F1FF = some (.lsr ⟨.lt, true, 3, 15, .imm 0xC000003F⟩) := by decide

/-- `cmp r3 r2` (V-DEC-5). -/
theorem test_decode_cmp : decodeTableWord 32 0x00B32000 = some (.cmp (plain 3 2 (.reg 0))) := by decide

/-- `ldm r1 r13`, the first half of `pop r1` (V-PS-3). -/
theorem test_decode_ldm : decodeTableWord 32 0x00C1D000 = some (.ldm (plain 1 13 (.reg 0))) := by decide

/-- `stm r0 r13` (V-DEC-6). -/
theorem test_decode_stm : decodeTableWord 32 0x00D0D000 = some (.stm (plain 0 13 (.reg 0))) := by decide

/-- `calleq` to slot 256 (V-DEC-8). -/
theorem test_decode_call :
    decodeTableWord 32 0x11E00C01 = some (.call ⟨.eq, false, 0, 0, .imm 256⟩) := by decide

/-- `retne` (V-DEC-10) and all ones below a legal condition (V-DEC-18). -/
theorem test_decode_ret :
    decodeTableWord 32 0x20F00000 = some (.ret ⟨.ne, false, 0, 0, .reg 0⟩) ∧
    decodeTableWord 32 0x6FFFFFFF = some (.ret ⟨.lte, true, 15, 15, .imm 1020⟩) := by decide

/-- The conditions by their numbers: GT 3 and GTE 5 (R79), on `mov r0 #1` (section 2.5). -/
theorem test_decode_conditions :
    decodeTableWord 32 0x31000001 = some (.mov ⟨.gt, false, 0, 0, .imm 1⟩) ∧
    decodeTableWord 32 0x51000001 = some (.mov ⟨.gte, false, 0, 0, .imm 1⟩) := by decide

/-- Words that are no instruction (V-DEC-19 to V-DEC-23), and a slot cut short (R70). -/
theorem test_decode_rejects_by_name :
    decodeWord 0x70000000 = .error (.reservedCondition 7) ∧
    decodeWord 0xFFFFFFFF = .error (.reservedCondition 15) ∧
    decodeWord 0x00E00000 = .error .callWithoutImmediate ∧
    decodeWord 0x60E00004 = .error .callWithoutImmediate ∧
    decode [0, 0, 0] = .error .truncated := by decide

/-- Reserved bits and the low byte with I=0 are ignored (V-DEC-13 to V-DEC-15). -/
theorem test_decode_ignores_reserved_bits :
    decodeWord 0x06F00000 = decodeWord 0x00F00000 ∧
    decodeWord 0x0700000A = decodeWord 0x0100000A ∧
    decodeWord 0x001012FF = decodeWord 0x00101200 := by decide

/-- The words the encoder writes for non-canonical records (section 2.3, the round trip). -/
theorem test_encode_writes_zeros :
    (decodeTableWord 32 0x00F12345).bind encodeWord = some 0x00F00000 ∧
    (decodeTableWord 32 0x01B12005).bind encodeWord = some 0x00B12000 ∧
    (decodeTableWord 32 0x6FFFFFFF).bind encodeWord = some 0x68F00000 := by decide

/-- An unused immediate that is not encodable does not stop the encoder, a used one does (log 13). -/
theorem test_encode_unused_immediate :
    encodeWord (.cmp (plain 1 2 (.imm 257))) = some 0x00B12000 ∧
    encodeWord (.ret (plain 0 0 (.imm 257))) = some 0x00F00000 ∧
    encodeWord (.mov (plain 0 0 (.imm 257))) = none := by decide

/-- The immediate at both ends of the rotation (V-IMM-4, V-IMM-16, V-IMM-18). -/
theorem test_expandImmediate :
    expandImmediate 1 1 = 0x40000000 ∧ expandImmediate 15 1 = 4 ∧ expandImmediate 15 255 = 1020 := by
  decide

/-- The first rotation is taken, and a window at an odd position fails (V-IMM-26, V-IMM-35, V-IMM-38). -/
theorem test_encodeImmediate :
    encodeImmediate 1020 = some (15, 255) ∧ encodeImmediate 0x80000000 = some (1, 2) ∧
    encodeImmediate 510 = none := by decide

/-! ### One step of each instruction -/

/-- V-PC-1 and V-PC-2: a jump, and a write of the own slot. -/
theorem test_mov_to_pc :
    see (start [(15, 2)]) 0x010F0007 (fun t => t.reg 15) = some 7 ∧
    see (start [(15, 2)]) 0x010F0002 (fun t => t.reg 15) = some 3 := by decide

/-- V-SL-13: the latch sees R15 before the advance. -/
theorem test_mov_latches_pc :
    see (start [(15, 2)]) 0x090F0002 (fun t => (t.reg 15, t.cv)) = some (3, 2) := by decide

/-- V-SL-6: the latch sees the wrapped sum. -/
theorem test_add_wraps :
    see (start [(1, 0x7FFFFFFF), (2, 1)]) 0x08101200 (fun t => (t.reg 0, t.cv)) =
      some (0x80000000, 0x80000000) := by decide

/-- V-ALU-35: sources are read first. -/
theorem test_add_onto_source :
    see (start [(0, 0x15)]) 0x00100000 (fun t => t.reg 0) = some 0x2A := by decide

/-- V-ALU-8. -/
theorem test_sub_borrows :
    see (start [(1, 5), (2, 7)]) 0x00201200 (fun t => t.reg 0) = some 0xFFFFFFFE := by decide

/-- V-ALU-10: not the difference the other way round. -/
theorem test_rsb_reverses :
    see (start [(1, 1), (2, 2)]) 0x00301200 (fun t => t.reg 0) = some 1 := by decide

/-- V-ALU-14 and V-ALU-15. -/
theorem test_mul_keeps_low_half :
    see (start [(1, 0x10000), (2, 0x10000)]) 0x00401200 (fun t => t.reg 0) = some 0 ∧
    see (start [(1, 0xFFFFFFFF), (2, 0xFFFFFFFF)]) 0x00401200 (fun t => t.reg 0) = some 1 := by decide

/-- V-ALU-18 and V-ALU-21: unsigned. -/
theorem test_div_is_unsigned :
    see (start [(1, 0xFFFFFFFE), (2, 2)]) 0x00501200 (fun t => t.reg 0) = some 0x7FFFFFFF ∧
    see (start [(1, 0x80000000), (2, 0xFFFFFFFF)]) 0x00501200 (fun t => t.reg 0) = some 0 := by decide

/-- V-FLT-1: the register and R15 are kept. -/
theorem test_div_by_zero :
    see (start [(0, 9), (1, 7), (15, 2)]) 0x00501200 (fun t => (t.status, t.reg 0, t.reg 15)) =
      some (.faulted (.divisionByZero .div), 9, 2) := by decide

/-- V-ALU-23. -/
theorem test_and :
    see (start [(1, 0xF0F0F0F0), (2, 0xFF00FF00)]) 0x00601200 (fun t => t.reg 0) = some 0xF000F000 := by
  decide

/-- V-ALU-24. -/
theorem test_xor :
    see (start [(1, 0xF0F0F0F0), (2, 0xFF00FF00)]) 0x00701200 (fun t => t.reg 0) = some 0x0FF00FF0 := by
  decide

/-- V-ALU-25. -/
theorem test_orr :
    see (start [(1, 0xF0F0F0F0), (2, 0xFF00FF00)]) 0x00801200 (fun t => t.reg 0) = some 0xFFF0FFF0 := by
  decide

/-- V-ALU-26 and V-ALU-27: the counts 31 and 32. -/
theorem test_lsl_at_the_width :
    see (start [(1, 1), (2, 31)]) 0x00901200 (fun t => t.reg 0) = some 0x80000000 ∧
    see (start [(1, 1), (2, 32)]) 0x00901200 (fun t => t.reg 0) = some 0 := by decide

/-- V-ALU-30: the count is the whole word. -/
theorem test_lsl_by_whole_word :
    see (start [(1, 1), (2, 0xFFFFFFFF)]) 0x00901200 (fun t => t.reg 0) = some 0 := by decide

/-- V-ALU-31 and V-ALU-32. -/
theorem test_lsr_at_the_width :
    see (start [(1, 0x80000000), (2, 31)]) 0x00A01200 (fun t => t.reg 0) = some 1 ∧
    see (start [(1, 0x80000000), (2, 32)]) 0x00A01200 (fun t => t.reg 0) = some 0 := by decide

/-- V-CMP-2 and V-CMP-6: the left operand is `Dst`, and the difference wraps. -/
theorem test_cmp_difference :
    see (start [(1, 3), (2, 9)]) 0x00B12000 (fun t => t.cv) = some 0xFFFFFFFA ∧
    see (start [(1, 0x80000000), (2, 1)]) 0x00B12000 (fun t => t.cv) = some 0x7FFFFFFF := by decide

/-- V-SL-8: with S the left operand replaces the difference. -/
theorem test_cmp_with_s :
    see (start [(1, 9), (2, 3)]) 0x08B12000 (fun t => (t.cv, t.reg 1)) = some (9, 9) := by decide

/-- V-MEM-8: the address is read before the write. -/
theorem test_ldm_onto_address :
    see (startMem [(1, 5)] 5 0x99) 0x00C11000 (fun t => t.reg 1) = some 0x99 := by decide

/-- V-MEM-5: the first address out of range. -/
theorem test_ldm_out_of_range :
    see (start [(0, 9), (1, 1024)]) 0x00C01000 (fun t => (t.status, t.reg 0, t.reg 15)) =
      some (.faulted (.memoryOutOfRange .ldm 1024), 9, 0) := by decide

/-- V-MEM-17: the last word of the memory. -/
theorem test_stm_last_word :
    see (start []) 0x00DDD000 (fun t => t.mem) = some [(4094, 3), (4095, 0xFF)] := by decide

/-- V-SL-10: with S the word stored is latched. -/
theorem test_stm_with_s :
    see (start [(0, 0xFFFFFFFF), (1, 8)]) 0x08D01000 (fun t => (t.mem.readWord 8, t.cv)) =
      some (0xFFFFFFFF, 0xFFFFFFFF) := by decide

/-- V-BR-1 and V-BR-4: a jump, and the own slot. -/
theorem test_call :
    see (start [(15, 1)]) 0x01E00004 (fun t => (t.callStack, t.reg 15)) = some ([2], 4) ∧
    see (start [(15, 1)]) 0x01E00001 (fun t => (t.callStack, t.reg 15)) = some ([2], 2) := by decide

/-- V-BR-9: the most recent entry is popped. -/
theorem test_ret_pops :
    see { start [(15, 9)] with callStack := [2, 7] } 0x00F00000 (fun t => (t.callStack, t.reg 15)) =
      some ([7], 2) := by decide

/-- V-BR-11: the end of the program. -/
theorem test_ret_halts :
    see { start [(15, 3)] with cv := 4 } 0x00F00000 (fun t => (t.status, t.reg 15, t.cv)) =
      some (.haltedRet, 3, 0) := by decide

/-! ### Phases and ends -/

/-- V-CC-5: with `cv` = −1, GTE executes and LTE is skipped, as the source writes the table. -/
theorem test_condition_table :
    see { start [] with cv := 0xFFFFFFFF } 0x51000001 (fun t => (t.reg 0, t.cv)) = some (1, 0) ∧
    see { start [] with cv := 0xFFFFFFFF } 0x61000001 (fun t => (t.reg 0, t.cv)) = some (0, 0) := by decide

/-- V-FLT-5: a reserved encoding does not consult `cv`. -/
theorem test_reserved_encoding :
    see { start [(15, 1)] with cv := 5 } 0x70000000 (fun t => (t.status, t.cv, t.reg 15)) =
      some (.faulted (.invalidOpcode 0x70000000), 5, 1) := by decide

/-- V-FLT-8: the decode fault comes before the skip. -/
theorem test_decode_before_condition :
    see (start []) 0x20E00000 (fun t => t.status) = some (.faulted (.invalidOpcode 0x20E00000)) := by decide

/-- V-PC-13 with `cv` kept, and V-PC-14. -/
theorem test_end_of_code :
    step { start [(15, 5)] with cv := 3, code := List.replicate 20 0 } =
      .next { start [(15, 5)] with cv := 3, code := List.replicate 20 0, status := .haltedEnd } ∧
    step State.reset = .next { State.reset with status := .haltedEnd } := ⟨rfl, rfl⟩

/-- V-PS-1 and V-PS-3: the words of `push r0` and `pop r1`. -/
theorem test_pseudo_words :
    (pushExpansion 0).map encodeWord = [some 0x012DD001, some 0x00D0D000] ∧
    (popExpansion 1).map encodeWord = [some 0x00C1D000, some 0x011DD001] := by decide

/-- The bytes of the assembled `mov r0 #10` of scenario 1. -/
theorem test_assemble : assemble "mov r0 #10 ; ten".toList = .ok [1, 0, 0, 0x0A] := by decide

/-- Labels count slots, a pseudo-instruction two of them (R100): the target of the jump is slot 2. -/
theorem test_assemble_label :
    assemble "push r0\nend:\nmov r15, end".toList =
      .ok [0x01, 0x2D, 0xD0, 0x01, 0x00, 0xD0, 0xD0, 0x00, 0x01, 0x0F, 0x00, 0x02] := by decide

/-- A label at the end of the source names the slot count (log 18). -/
theorem test_assemble_label_at_the_end :
    assemble "mov r15 end\nend:".toList = .ok [0x01, 0x0F, 0x00, 0x01] := by rfl

/-! ### Witnesses: the step -/

/-- The code of the witnesses below: `add r0 r1 r2` in slot 1, between two zero words. -/
def addCode : List Byte := [0, 0, 0, 0] ++ bytesOfWord 0x00101200 ++ [0, 0, 0, 0]

theorem test_witness_AtSlot (w : Word) :
    AtSlot { start [(15, 1)] with code := [0, 0, 0, 0] ++ bytesOfWord w ++ [0, 0, 0, 0] } w
      [0, 0, 0, 0] [0, 0, 0, 0] := ⟨rfl, by simp [bytesOfWord], rfl, rfl⟩

theorem test_witness_StepRunsTheDecodedInstruction :
    AtSlot { start [(15, 1)] with code := addCode } 0x00101200 [0, 0, 0, 0] [0, 0, 0, 0] ∧
    decode (addCode.drop 4) = .ok (.add (plain 0 1 (.reg 2)), [0, 0, 0, 0]) :=
  ⟨test_witness_AtSlot _, by decide⟩

/-- Both clauses of the range at their boundary: slot 5 of five slots and slot 4 of five slots. -/
theorem test_witness_EndOfCodeHaltsAndChangesNothingElse :
    (start [(15, 5)]).status = .running ∧ (List.replicate 20 (0 : Byte)).length % 4 = 0 ∧
    (List.replicate 20 (0 : Byte)).length ≤ 4 * ((start [(15, 5)]).reg 15).toNat ∧
    4 * ((start [(15, 4)]).reg 15).toNat < (List.replicate 20 (0 : Byte)).length ∧
    (after { start [(15, 4)] with code := List.replicate 20 0 } 0).isSome = true := by decide

/-- Condition number 7, the first reserved one, and `call` without an immediate. -/
theorem test_witness_ReservedEncodingRaisesInvalidOpcode :
    (AtSlot { start [(15, 1)] with code := [0, 0, 0, 0] ++ bytesOfWord 0x70000000 ++ [0, 0, 0, 0] }
        0x70000000 [0, 0, 0, 0] [0, 0, 0, 0] ∧ 6 < bits 0x70000000 28 4) ∧
    (AtSlot { start [(15, 1)] with code := [0, 0, 0, 0] ++ bytesOfWord 0x00E00000 ++ [0, 0, 0, 0] }
        0x00E00000 [0, 0, 0, 0] [0, 0, 0, 0] ∧ bits 0x00E00000 20 4 = 14 ∧ bits 0x00E00000 24 1 = 0) :=
  ⟨⟨test_witness_AtSlot _, by decide⟩, test_witness_AtSlot _, by decide⟩

theorem test_witness_EndedRunHasNoNextStep :
    ({ start [] with status := .faulted (.divisionByZero .div) } : State).status =
      .faulted (.divisionByZero .div) ∧
    ({ start [] with status := .haltedEnd } : State).status = .haltedEnd ∧
    ({ start [] with status := .haltedRet } : State).status = .haltedRet := by decide

theorem test_witness_BrokenCodeLengthIsRefused :
    (start []).status = .running ∧ ([0] : List Byte).length % 4 ≠ 0 := by decide

theorem test_witness_RunningMachineAlwaysSteps :
    (start [(15, 1)]).status = .running ∧ addCode.length % 4 = 0 := by decide

theorem test_witness_NoStepChangesTheCode :
    ∃ t, step { start [(15, 1)] with code := addCode } = .next t := ⟨_, rfl⟩

/-! ### Witnesses: decoding and encoding -/

/-- A register and an immediate operand. -/
theorem test_witness_DecodedFieldsFollowTheLayout :
    decodeWord 0x00101200 = .ok (.add (plain 0 1 (.reg 2))) ∧
    (Instr.add (plain 0 1 (.reg 2))).fields.immediate = false ∧
    decodeWord 0x01030C01 = .ok (.mov (plain 3 0 (.imm 256))) ∧
    (Instr.mov (plain 3 0 (.imm 256))).fields.immediate = true := by decide

/-- The last legal and the first reserved condition number, and `call` with either I flag. -/
theorem test_witness_WordIsInvalidExactlyWhenReserved :
    (decodeWord 0x60000000).isOk = true ∧ bits 0x60000000 28 4 = 6 ∧
    (decodeWord 0x70000000).isOk = false ∧ bits 0x70000000 28 4 = 7 ∧
    (decodeWord 0x01E00000).isOk = true ∧ bits 0x01E00000 24 1 = 1 ∧
    (decodeWord 0x00E00000).isOk = false ∧ bits 0x00E00000 24 1 = 0 := by decide

/-- V-DEC-14 beside V-DEC-2. -/
theorem test_witness_ReservedBitsAreIgnoredAndWrittenZero :
    (∀ k < 32, k ≠ 25 → k ≠ 26 → (0x0100000A : Word).getLsbD k = (0x0700000A : Word).getLsbD k) ∧
    AtSlot { start [(15, 1)] with code := [0, 0, 0, 0] ++ bytesOfWord 0x0100000A ++ [0, 0, 0, 0] }
      0x0100000A [0, 0, 0, 0] [0, 0, 0, 0] ∧
    decodeWord 0x0100000A = .ok (.mov (plain 0 0 (.imm 10))) ∧
    encodeWord (.mov (plain 0 0 (.imm 10))) = some 0x0100000A :=
  ⟨by decide, test_witness_AtSlot _, by decide, by decide⟩

/-- V-IMM-26 needs the last rotation, V-IMM-37 has none. -/
theorem test_witness_ImmediateEncodingIsClosed :
    (∃ rot < 16, ((1020 : Word).rotateLeft (2 * rot)).toNat ≤ 255) ∧
    (∀ rot < 16, 255 < ((257 : Word).rotateLeft (2 * rot)).toNat) := by decide

theorem test_witness_ImmediateEncodingTakesTheSmallestRotation :
    encodeImmediate 0x80000000 = some (1, 2) ∧ encodeImmediate 1020 = some (15, 255) := by decide

theorem test_witness_DecodedInstructionIsWellFormed :
    decodeWord 0x01E00004 = .ok (.call (plain 0 0 (.imm 4))) ∧
    decodeWord 0x01030C01 = .ok (.mov (plain 3 0 (.imm 256))) := by decide

theorem test_witness_DecodeOfEncodeGivesTheInstructionBack :
    (Instr.lsr ⟨.lt, true, 3, 15, .imm 0xC000003F⟩).canonical = true ∧
    (Instr.call (plain 0 0 (.imm 1020))).canonical = true ∧
    (Instr.ret (plain 0 0 (.reg 0))).canonical = true := by decide

/-- A record with junk in its unused fields (V-DEC-16). -/
theorem test_witness_UnusedFieldsAreIgnored :
    (Instr.ret (plain 1 2 (.reg 3))).wellFormed = true := by decide

/-! ### Witnesses: the shared phases -/

theorem test_witness_SkippedInstructionOnlyClearsCvAndAdvances :
    ¬ Executes (Instr.mov ⟨.ne, false, 0, 0, .imm 1⟩).fields.cond (start []).cv := by
  simp [Executes, Instr.fields]; rfl

/-- A `cmp`, and a `mov` with the S flag. -/
theorem test_witness_OnlyCmpAndTheSFlagLeaveAConditionWord :
    (∃ t, exec (.cmp (plain 1 2 (.reg 0))) (start [(1, 9), (2, 3)]) = .next t ∧ t.cv ≠ 0) ∧
    ∃ t, exec (.mov ⟨.al, true, 0, 0, .imm 5⟩) (start []) = .next t ∧ t.cv ≠ 0 :=
  ⟨⟨_, rfl, by decide⟩, _, rfl, by decide⟩

/-- A register that is not the destination, and for the last four the destination field itself. -/
theorem test_witness_OnlyTheDestinationAndThePcAreWritten :
    (∃ t, exec (.add (plain 0 1 (.reg 2))) (start []) = .next t) ∧ (1 : Reg) ≠ 15 ∧
    (1 : Reg) ≠ (Instr.add (plain 0 1 (.reg 2))).fields.dst ∧
    (∃ t, exec (.cmp (plain 1 2 (.reg 0))) (start []) = .next t) ∧
    (∃ t, exec (.stm (plain 1 2 (.reg 0))) (start []) = .next t) ∧
    (∃ t, exec (.call (plain 0 0 (.imm 4))) (start []) = .next t) ∧
    ∃ t, exec (.ret (plain 0 0 (.reg 0))) (start []) = .next t :=
  ⟨⟨_, rfl⟩, by decide, by decide, ⟨_, rfl⟩, ⟨_, rfl⟩, ⟨_, rfl⟩, _, rfl⟩

theorem test_witness_OnlyTransfersReachDataMemory :
    (∀ f, Instr.add (plain 0 1 (.reg 2)) ≠ .ldm f) ∧ (∀ f, Instr.add (plain 0 1 (.reg 2)) ≠ .stm f) ∧
    ∃ t, exec (.add (plain 0 1 (.reg 2))) (start []) = .next t :=
  ⟨fun _ => nofun, fun _ => nofun, _, rfl⟩

theorem test_witness_OnlyCallAndRetReachTheCallStack :
    (∀ f, Instr.stm (plain 0 1 (.reg 2)) ≠ .call f) ∧ (∀ f, Instr.stm (plain 0 1 (.reg 2)) ≠ .ret f) ∧
    ∃ t, exec (.stm (plain 0 1 (.reg 2))) (start []) = .next t :=
  ⟨fun _ => nofun, fun _ => nofun, _, rfl⟩

/-- A state whose call stack is full, whatever the bound is. -/
def fullCallStack : State := { start [(15, 1)] with callStack := List.replicate Config.callStackMax 5 }

/-- The five causes, for `OnlyTheNamedCausesEndTheRun` and `InstructionThatEndsTheRunWritesNothing`. -/
theorem test_witness_ends_of_the_run :
    (∃ t, exec (.div (plain 0 1 (.reg 2))) (start []) = .next t ∧ t.status ≠ (start []).status) ∧
    (∃ t, exec (.ldm (plain 0 1 (.reg 0))) (start [(1, 1024)]) = .next t ∧
      t.status ≠ (start [(1, 1024)]).status) ∧
    (∃ t, exec (.stm (plain 0 1 (.reg 0))) (start [(1, 1024)]) = .next t ∧
      t.status ≠ (start [(1, 1024)]).status) ∧
    (∃ t, exec (.call (plain 0 0 (.imm 4))) fullCallStack = .next t ∧ t.status ≠ fullCallStack.status) ∧
    ∃ t, exec (.ret (plain 0 0 (.reg 0))) (start []) = .next t ∧ t.status ≠ (start []).status := by
  refine ⟨⟨_, rfl, by decide⟩, ⟨_, rfl, by decide⟩, ⟨_, rfl, by decide⟩, ⟨_, exec_of_not_skips rfl, ?_⟩,
    _, rfl, by decide⟩
  rw [effect, effectCall_eq, if_pos (by simp [fullCallStack])]
  exact nofun

theorem test_witness_NoInstructionStaysInItsSlot :
    ∃ t, exec (.mov (plain 15 0 (.imm 2))) (start [(15, 2)]) = .next t ∧
      t.status = (start [(15, 2)]).status ∧ t.status = .running := ⟨_, rfl, by decide, by decide⟩

theorem test_witness_EveryStepKeepsTheInvariant :
    Safety.Inv { start [(15, 1)] with code := addCode } ∧
    ∃ t, step { start [(15, 1)] with code := addCode } = .next t :=
  ⟨⟨by decide, rfl, Nat.zero_le _, rfl⟩, _, rfl⟩

/-! ### Witnesses: the instructions -/

/-- For every statement whose only hypothesis is that the condition lets the instruction execute, any
fields with condition AL do, and with EQ a zero `cv` (the result statements of `mov`, `add`, `sub`, `rsb`,
`mul`, `and`, `xor`, `orr`, `lsl`, `lsr`, `cmp`). -/
theorem test_witness_Executes :
    (∀ f : Fields, f.cond = .al → Executes f.cond (start []).cv) ∧
    Executes (⟨.eq, true, 15, 1, .reg 2⟩ : Fields).cond (start [(1, 5)]).cv :=
  ⟨fun f h => by rw [h]; trivial, rfl⟩

/-- The clause on R15 as the destination of an arithmetic instruction (V-PC-5, V-PC-6). -/
theorem test_witness_Wrote_jump :
    see (start [(15, 4)]) 0x011FF002 (fun t => t.reg 15) = some 6 ∧
    see (start [(15, 4)]) 0x011FF000 (fun t => t.reg 15) = some 5 := by decide

theorem test_witness_DivWritesTheUnsignedQuotient :
    Executes (plain 0 1 (.reg 2)).cond (start [(1, 7), (2, 2)]).cv ∧
    secondSource (start [(1, 7), (2, 2)]) (plain 0 1 (.reg 2)) ≠ 0 := ⟨trivial, by decide⟩

theorem test_witness_DivByZeroRaisesItsError :
    Executes (plain 0 1 (.imm 0)).cond (start [(1, 7)]).cv ∧
    secondSource (start [(1, 7)]) (plain 0 1 (.imm 0)) = 0 := ⟨trivial, by decide⟩

/-- The last legal address (V-MEM-4). -/
theorem test_witness_LdmLoadsTheWord :
    Executes (plain 0 1 (.reg 0)).cond (start [(1, 1023)]).cv ∧
    (soleSource (start [(1, 1023)]) (plain 0 1 (.reg 0))).toNat < Config.stackSize ∧
    see (startMem [(1, 1023)] 1023 0x22) 0x00C01000 (fun t => t.reg 0) = some 0x22 :=
  ⟨trivial, by decide, by decide⟩

/-- The last legal address, in a memory that holds something (V-MEM-17). -/
theorem test_witness_StmStoresTheWord :
    (startMem [] 5 9).mem.wf ∧ Executes (plain 13 13 (.reg 0)).cond (startMem [] 5 9).cv ∧
    (soleSource (startMem [] 5 9) (plain 13 13 (.reg 0))).toNat < Config.stackSize :=
  ⟨by decide, trivial, by decide⟩

/-- The first illegal address (V-MEM-5) and the last (V-MEM-6). -/
theorem test_witness_TransferOutOfRangeRaisesItsError :
    Executes (plain 0 1 (.reg 0)).cond (start [(1, 1024)]).cv ∧
    Config.stackSize ≤ (soleSource (start [(1, 1024)]) (plain 0 1 (.reg 0))).toNat ∧
    Config.stackSize ≤ (soleSource (start [(1, 0xFFFFFFFF)]) (plain 0 1 (.reg 0))).toNat :=
  ⟨trivial, by decide, by decide⟩

/-- The word written and the word beside it, at the top of the memory. -/
theorem test_witness_LoadReturnsTheLatestStore :
    (startMem [] 1023 9).mem.wf ∧ (1023 : Word).toNat < Config.stackSize ∧
    ((start []).memWrite 1023 9).map (fun t => (t.memRead 1023, t.memRead 1022)) =
      some (some 9, some 0) := by decide

/-- Room on the call stack, whatever the bound is; the own slot and another as the target. -/
theorem test_witness_CallPushesTheReturnSlotAndJumps :
    Executes (plain 0 0 (.imm 1)).cond (start [(15, 1)]).cv ∧ (plain 0 0 (.imm 1)).immediate = true ∧
    (start [(15, 1)]).callStack.length < Config.callStackMax ∧
    slotAfter ((start [(15, 1)]).reg 15) 1 = 2 ∧ slotAfter ((start [(15, 1)]).reg 15) 4 = 4 :=
  ⟨trivial, rfl, Nat.succ_pos _, by decide, by decide⟩

theorem test_witness_CallOnAFullCallStackRaisesItsError :
    Executes (plain 0 0 (.imm 4)).cond fullCallStack.cv ∧
    Config.callStackMax ≤ fullCallStack.callStack.length :=
  ⟨trivial, by simp [fullCallStack]⟩

theorem test_witness_RetPopsTheMostRecentSlot :
    Executes (plain 0 0 (.reg 0)).cond (start [(15, 9)]).cv ∧
    ({ start [(15, 9)] with callStack := [9] } : State).callStack = 9 :: [] := ⟨trivial, rfl⟩

theorem test_witness_RetOnAnEmptyCallStackHalts :
    Executes (plain 0 0 (.reg 0)).cond (start [(15, 3)]).cv ∧ (start [(15, 3)]).callStack = [] :=
  ⟨trivial, by decide⟩

/-- A `call` in slot 1 and a `ret` in slot 9. -/
theorem test_witness_RetReturnsToTheSlotAfterTheCall :
    Executes (plain 0 0 (.imm 4)).cond (start [(15, 1)]).cv ∧
    (start [(15, 1)]).callStack.length < Config.callStackMax ∧
    Executes (plain 0 0 (.reg 0)).cond (start [(15, 9)]).cv ∧
    (start [(15, 1)]).reg 15 + 1 ≠ (start [(15, 9)]).reg 15 ∧
    ∃ t, exec (.call (plain 0 0 (.imm 4))) (start [(15, 1)]) = .next t ∧
      ({ start [(15, 9)] with callStack := [2] } : State).callStack = t.callStack :=
  ⟨trivial, Nat.succ_pos _, trivial, by decide, _, rfl, by decide⟩

/-! ### Witnesses: pseudo-instructions, assembler, host -/

/-- The reset stack pointer, and the lowest one a `push` can use. -/
theorem test_witness_PushStoresBelowTheStackPointer :
    (start []).mem.wf ∧ ((start []).reg 13 - 1).toNat < Config.stackSize ∧
    ((start [(13, 1)]).reg 13 - 1).toNat < Config.stackSize ∧
    ((start [(13, 1024)]).reg 13 - 1).toNat < Config.stackSize := by decide

theorem test_witness_PushThenPopMovesAndRestoresTheStackPointer :
    (start []).mem.wf ∧ (0 : Reg) ≠ 13 ∧ (0 : Reg) ≠ 15 ∧ (1 : Reg) ≠ 13 ∧ (1 : Reg) ≠ 15 ∧
    ((start []).reg 13 - 1).toNat < Config.stackSize := by decide

/-- Two slots, the boundary slot 1 among them. -/
theorem test_witness_AssembledCodeIsWholeSlotsOfInstructions :
    assemble "push r0".toList = .ok [0x01, 0x2D, 0xD0, 0x01, 0x00, 0xD0, 0xD0, 0x00] ∧
    4 * 1 < [0x01, 0x2D, 0xD0, 0x01, 0x00, 0xD0, 0xD0, 0x00].length := by decide

/-- The last register and the last word. -/
theorem test_witness_HostReadsBackWhatItSet :
    (hostNew false).state.mem.wf ∧ (hostNew false).execCalled = false ∧
    (15 : Word).toNat < 16 ∧ (1023 : Word).toNat < Config.stackSize := by decide

/-- The run of the empty code: begun and not ended, and ended after one step (V-PC-14). -/
theorem test_witness_ExecHappensOnceAndOwnsTheMachine :
    (∃ t, hostExec 0 [] (hostNew false) = .ok (t, none) ∧ t.state.status = .running) ∧
    ∃ t, hostExec 1 [] (hostNew false) = .ok (t, some (.ok ())) ∧ t.state.status ≠ .running :=
  ⟨⟨_, rfl, by decide⟩, _, rfl, by decide⟩

/-- R236: once `exec` of the empty code has been called, `set` and a second `exec` are refused before its
first step too. -/
theorem test_host_empty_code_is_a_run :
    ((hostLoad [] (hostNew false)).bind (hostSet .reg 0 5)) = .error .wrongTime ∧
    ((hostLoad [] (hostNew false)).bind (hostLoad [])) = .error .wrongTime ∧
    ((hostLoad [] (hostNew false)).bind (hostGet .reg 13)) = .error .wrongTime := ⟨rfl, rfl, rfl⟩

/-- R236: what is set is read back, `Dec` answers its argument, and a wrong location is refused. -/
theorem test_host_get_set :
    ((hostSet .reg 15 7 (hostNew false)).bind (hostGet .reg 15)) = .ok 7 ∧
    hostGet .dec 99 (hostNew false) = .ok 99 ∧
    hostGet .mem 1024 (hostNew false) = .error .locOutOfRange ∧
    hostGet .stack 0 (hostNew false) = .error .noMeaning := ⟨rfl, rfl, rfl, rfl⟩

/-- R99, R100: the error kinds the model chooses (log 18). -/
theorem test_assemble_chosen_errors :
    assemble "call r1".toList = .error (.malformedOperand "r1".toList) ∧
    assemble "9a:".toList = .error (.malformedOperand "9a".toList) ∧
    assemble ":".toList = .error (.malformedOperand []) ∧
    assemble "a:\nb:\na:\nb:".toList = .error (.malformedOperand "a".toList) :=
  ⟨by rfl, by rfl, by rfl, by rfl⟩

end Sys2Proof.Tests
end

section
/-! Proofs about the machine's state (spec/10_state.md): the invariant, the register frame and the privacy of
the call stack. -/

namespace Sys2Proof.Machine

open Safety

/-! ### The invariant -/

theorem underflow_of_status_eq {s t : State} (h : t.status = s.status) : underflow t = underflow s := by
  simp [underflow, h]

/-- The invariant speaks of four fields only: a state that shares three of them keeps it unless its status is
the error nothing raises. -/
theorem inv_of_frame {s t : State} (hs : Inv s) (hmem : t.mem = s.mem) (hcode : t.code = s.code)
    (hcs : t.callStack = s.callStack) (hu : underflow t = false) : Inv t :=
  ⟨hmem ▸ hs.memory, hcode ▸ hs.slots, hcs ▸ hs.callDepth, hu⟩

theorem inv_clearCv {s : State} (hs : Inv s) : Inv s.clearCv :=
  inv_of_frame hs rfl rfl rfl hs.status

theorem inv_haltEnd {s : State} (hs : Inv s) : Inv s.haltEnd := inv_of_frame hs rfl rfl rfl rfl

theorem inv_haltRet {s : State} (hs : Inv s) : Inv s.haltRet := inv_of_frame hs rfl rfl rfl rfl

theorem inv_raise {s : State} (hs : Inv s) {e : RunError} (he : underflow (s.raise e) = false) :
    Inv (s.raise e) := inv_of_frame hs rfl rfl rfl he

theorem inv_latch {s : State} (hs : Inv s) (m : Mode) (f : Fields) : Inv (s.latch m f) :=
  inv_of_frame hs (by simp) (by simp) (by simp) <|
    (underflow_of_status_eq (by simp)).trans hs.status

theorem inv_advancePc {s : State} (hs : Inv s) (b : Word) : Inv (s.advancePc b) :=
  inv_of_frame hs (by simp) (by simp) (by simp) <|
    (underflow_of_status_eq (by simp)).trans hs.status

/-- No phase X raises `CallStackUnderflow`. -/
theorem underflow_raise_of_effect {i : Instr} {s : State} {e : RunError} (h : effect i s = .raised e)
    (q : State) : underflow (q.raise e) = false := by
  rcases effect_raised h with ⟨_, _, _, rfl⟩ | ⟨_, _, _, rfl⟩ | ⟨_, _, _, rfl⟩ | ⟨_, _, _, rfl⟩ <;> rfl

/-- A normal phase X keeps the invariant: a store is inside the range, and `call` pushes only below the
bound. -/
theorem inv_of_effect_normal {i : Instr} {s u : State} (hs : Inv s) (h : effect i s = .normal u) :
    Inv u := by
  obtain ⟨hstatus, hcode, -, -, hmem, hcs⟩ := effect_normal h
  refine ⟨?memory, hcode ▸ hs.slots, ?callDepth, (underflow_of_status_eq hstatus).trans hs.status⟩
  case memory =>
    rcases hmem with hmem | ⟨-, a, v, ha, hmem⟩
    · exact hmem ▸ hs.memory
    · exact hmem ▸ Memory.writeWord_wf hs.memory ha v
  case callDepth =>
    have hdepth := hs.callDepth
    rcases hcs with hcs | ⟨-, ⟨v, hcs⟩, hroom⟩ | ⟨-, v, hcs⟩
    · exact hcs ▸ hdepth
    · rw [hcs, List.length_cons]; omega
    · rw [hcs, List.length_cons] at hdepth; omega

theorem inv_of_exec {i : Instr} {s t : State} (hs : Inv s) (h : exec i s = .next t) : Inv t := by
  have hc := inv_clearCv hs
  rcases exec_cases h with ⟨-, rfl⟩ | ⟨-, ⟨u, hu, rfl⟩ | ⟨e, he, rfl⟩ | ⟨-, rfl⟩⟩
  · exact inv_advancePc hc _
  · exact inv_advancePc (inv_latch (inv_of_effect_normal hc hu) _ _) _
  · exact inv_raise hc (underflow_raise_of_effect he _)
  · exact inv_haltRet hc

theorem inv_of_step {s t : State} (hs : Inv s) (h : step s = .next t) : Inv t := by
  obtain ⟨-, -, ⟨-, rfl⟩ | ⟨-, ⟨i, -, hi⟩ | ⟨e, -, rfl⟩⟩⟩ := step_cases h
  · exact inv_haltEnd hs
  · exact inv_of_exec hs hi
  · exact inv_raise hs rfl

/-! ### The register frame -/

/-- The instructions whose phase X writes no register but R15. -/
theorem effect_reg_of_no_destination {i : Instr} {s u : State} {r : Reg}
    (hi : i.op = .cmp ∨ i.op = .stm ∨ i.op = .call ∨ i.op = .ret)
    (h : effect i s = .normal u) (hr : r ≠ 15) : u.reg r = s.reg r := by
  cases i with
  | cmp f => cases h; rfl
  | stm f =>
    rw [effect, effectStm_eq] at h
    split at h <;> cases h
    rfl
  | call f =>
    rw [effect, effectCall_eq] at h
    split at h <;> cases h
    simp [hr]
  | ret f =>
    cases hc : s.callStack with
    | nil => rw [effect, effectRet_nil hc] at h; cases h
    | cons v rest =>
      rw [effect, effectRet_cons hc] at h
      cases h
      exact State.reg_setReg_of_ne _ hr v
  | _ f => simp [Instr.op] at hi

/-- Phase X writes no register but R15 and, where the instruction has one, its destination. -/
theorem effect_reg_frame {i : Instr} {s u : State} {r : Reg} (h : effect i s = .normal u) (hr : r ≠ 15)
    (hfree : r ≠ i.fields.dst ∨ i.op = .cmp ∨ i.op = .stm ∨ i.op = .call ∨ i.op = .ret) :
    u.reg r = s.reg r := by
  rcases hfree with hdst | hop
  · obtain ⟨-, -, hframe, -⟩ := effect_normal h
    exact hframe r hdst hr
  · exact effect_reg_of_no_destination hop h hr

/-! ### Updates an instruction does not see

An update of the state that leaves the registers and `cv` and commutes with the writes of the shared phases can
be made before or after an instruction alike, if phase X of that instruction does not see it. -/

/-- The end of phase X with the state it carries changed by `g`. -/
def Effect.map (g : State → State) : Effect → Effect
  | .normal s => .normal (g s)
  | .raised e => .raised e
  | .haltedRet => .haltedRet

/-- `g` changes nothing the phases C, L, P and the operands read, and commutes with what they write. -/
structure Unseen (g : State → State) : Prop where
  reg     : ∀ s r, (g s).reg r = s.reg r
  cv      : ∀ s, (g s).cv = s.cv
  setReg  : ∀ s r v, (g s).setReg r v = g (s.setReg r v)
  setCv   : ∀ s v, (g s).setCv v = g (s.setCv v)
  raise   : ∀ s e, (g s).raise e = g (s.raise e)
  haltRet : ∀ s, (g s).haltRet = g s.haltRet

section
variable {g : State → State} (hg : Unseen g)
include hg

theorem Unseen.src1 (s : State) (f : Fields) : (g s).src1 f = s.src1 f := by
  simp only [State.src1_eq, hg.reg]

theorem Unseen.src2 (s : State) (f : Fields) : (g s).src2 f = s.src2 f := by
  simp only [State.src2_eq, hg.reg]

theorem Unseen.latch (s : State) (m : Mode) (f : Fields) : (g s).latch m f = g (s.latch m f) := by
  cases m <;> simp only [State.latch, hg.reg, hg.setCv] <;> split <;> rfl

theorem Unseen.advancePc (s : State) (b : Word) : (g s).advancePc b = g (s.advancePc b) := by
  simp only [State.advancePc, State.pc, hg.reg, hg.setReg]
  exact (apply_ite g _ _ _).symm

theorem Unseen.finish (m : Mode) (f : Fields) (b : Word) (s : State) (x : Effect) :
    finish m f b (g s) (x.map g) = g (finish m f b s x) := by
  cases x with
  | normal u => simp only [Effect.map, Machine.finish, hg.latch, hg.advancePc]
  | raised e => exact hg.raise s e
  | haltedRet => exact hg.haltRet s

/-- An update that phase X does not see is not seen by the instruction. -/
theorem Unseen.exec {i : Instr} (hx : ∀ s, effect i (g s) = (effect i s).map g) {s t : State}
    (h : exec i s = .next t) : exec i (g s) = .next (g t) := by
  have hclear : (g s).clearCv = g s.clearCv := hg.setCv s 0
  cases hs : skips i.fields.cond s.cv with
  | true =>
    rw [exec_of_skips hs] at h
    cases h
    rw [exec_of_skips (by rwa [hg.cv]), hclear, hg.reg, hg.advancePc]
  | false =>
    rw [exec_of_not_skips hs] at h
    cases h
    rw [exec_of_not_skips (by rwa [hg.cv]), hclear, hg.reg, hx, hg.finish]

/-- Phase X of the data-processing instructions reads and writes registers and `cv` alone. -/
theorem Unseen.effect_of_dataProcessing {i : Instr} (hi : i.op.mode = .dataProcessing) (s : State) :
    effect i (g s) = (effect i s).map g := by
  cases i with
  | mov f => simp only [effect, effectMov, hg.src1, hg.setReg, Effect.map]
  | div f =>
    simp only [effect, effectDiv_eq, hg.src2, hg.reg, hg.setReg]
    split <;> rfl
  | cmp f => simp only [effect, effectCmp, hg.reg, hg.setCv, Effect.map]
  | ldm f | stm f | call f | ret f => cases hi
  | _ f => simp only [effect, writeAlu, hg.src2, hg.reg, hg.setReg, Effect.map]

end

/-! ### The privacy of the call stack -/

/-- The state with another call stack. -/
def State.setCallStack (cs : List Word) (s : State) : State := { s with callStack := cs }

theorem unseen_setCallStack (cs : List Word) : Unseen (State.setCallStack cs) where
  reg _ _ := rfl
  cv _ := rfl
  setReg _ _ _ := rfl
  setCv _ _ := rfl
  raise _ _ := rfl
  haltRet _ := rfl

/-- Phase X of an instruction other than `call` and `ret` does not see the call stack. -/
theorem effect_setCallStack {i : Instr} (hcall : ∀ f, i ≠ .call f) (hret : ∀ f, i ≠ .ret f)
    (cs : List Word) (s : State) :
    effect i (s.setCallStack cs) = (effect i s).map (State.setCallStack cs) := by
  have hg := unseen_setCallStack cs
  cases i with
  | ldm f => simp only [effect, effectLdm_eq, hg.src1]; split <;> rfl
  | stm f => simp only [effect, effectStm_eq, hg.src1]; split <;> rfl
  | call f => exact absurd rfl (hcall f)
  | ret f => exact absurd rfl (hret f)
  | _ f => exact hg.effect_of_dataProcessing rfl s

/-- With its own call stack put back in, the state is itself, so what follows holds that call stack too. -/
theorem exec_callStack {i : Instr} {s t : State} (hcall : ∀ f, i ≠ .call f) (hret : ∀ f, i ≠ .ret f)
    (h : exec i s = .next t) : t.callStack = s.callStack := by
  have hsame := (unseen_setCallStack s.callStack).exec (effect_setCallStack hcall hret s.callStack) h
  have ht : t = t.setCallStack s.callStack := Host.Outcome.next.inj (h.symm.trans hsame)
  rw [ht]; rfl

end Sys2Proof.Machine

namespace Sys2Proof.Claims

open Machine

/-- Settles O27: phases F and D only end the run, and phase X of each instruction keeps the invariant. -/
theorem everyStepKeepsTheInvariant : Obligations.EveryStepKeepsTheInvariant :=
  fun _ _ hs h => inv_of_step hs h

/-- Settles O21: only a normal phase X can write a register, and none writes one but its destination and R15. -/
theorem onlyTheDestinationAndThePcAreWritten : Obligations.OnlyTheDestinationAndThePcAreWritten := by
  intro i s t r h hr hfree
  rcases exec_cases h with ⟨-, rfl⟩ | ⟨-, ⟨u, hu, rfl⟩ | ⟨e, -, rfl⟩ | ⟨-, rfl⟩⟩
  · simp [hr]
  · simpa [hr] using effect_reg_frame hu hr hfree
  · simp
  · simp

/-- Settles O23: replacing the call stack commutes with every instruction but `call` and `ret`. -/
theorem onlyCallAndRetReachTheCallStack : Obligations.OnlyCallAndRetReachTheCallStack :=
  fun _ _ _ cs hcall hret h =>
    ⟨exec_callStack hcall hret h,
      (unseen_setCallStack cs).exec (effect_setCallStack hcall hret cs) h⟩

end Sys2Proof.Claims
end

section
/-! Proofs about the memory family (spec/20_memory.md): the code store no step writes, a load after a store,
and the host's reads of what it has set. -/

namespace Sys2Proof.Machine

/-! ### The code store -/

theorem exec_code {i : Instr} {s t : State} (h : exec i s = .next t) : t.code = s.code := by
  rcases exec_cases h with ⟨-, rfl⟩ | ⟨-, ⟨u, hu, rfl⟩ | ⟨e, -, rfl⟩ | ⟨-, rfl⟩⟩
  · simp
  · obtain ⟨-, hcode, -⟩ := effect_normal hu
    simpa using hcode
  · simp
  · simp

theorem step_code {s t : State} (h : step s = .next t) : t.code = s.code := by
  obtain ⟨-, -, ⟨-, rfl⟩ | ⟨-, ⟨i, -, hi⟩ | ⟨e, -, rfl⟩⟩⟩ := step_cases h
  · exact s.haltEnd_code
  · exact exec_code hi
  · exact s.raise_code _

/-! ### Data memory -/

theorem State.memWrite_of_lt (s : State) {a : Word} (ha : a.toNat < Config.stackSize) (v : Word) :
    s.memWrite a v = some { s with mem := s.mem.writeWord a.toNat v } :=
  State.memWrite_eq_some.2 ⟨ha, rfl⟩

/-- A `MemRead` after a `MemWrite` that was made. -/
theorem State.memRead_of_memWrite {s t : State} {a v : Word} (hs : s.mem.wf)
    (h : s.memWrite a v = some t) (b : Word) :
    t.memRead b = if b = a then some v else s.memRead b := by
  obtain ⟨ha, rfl⟩ := State.memWrite_eq_some.1 h
  rw [State.memRead_eq, State.memRead_eq, Memory.readWord_writeWord hs.1]
  by_cases hb : b = a
  · simp [hb, ha]
  · have hne : b.toNat ≠ a.toNat := fun he => hb (BitVec.eq_of_toNat_eq he)
    simp [hb, hne]

/-! ### The host before `exec` -/

theorem hostSet_reg_of_lt (s : State) {loc : Word} (hl : loc.toNat < 16) (v : Word) :
    hostSet .reg loc v ⟨s, false⟩ = .ok ⟨s.setReg ⟨loc.toNat, hl⟩ v, false⟩ := by
  simp [hostSet, Vm.beforeExec, hl]

theorem hostGet_reg_of_lt (s : State) {loc : Word} (hl : loc.toNat < 16) :
    hostGet .reg loc ⟨s, false⟩ = .ok (s.reg ⟨loc.toNat, hl⟩) := by
  simp [hostGet, Vm.duringExec, hl]

theorem hostSet_mem_of_memWrite {s t : State} {loc v : Word} (h : s.memWrite loc v = some t) :
    hostSet .mem loc v ⟨s, false⟩ = .ok ⟨t, false⟩ := by
  simp [hostSet, Vm.beforeExec, h]

theorem hostGet_mem_of_memRead {s : State} {loc v : Word} (h : s.memRead loc = some v) :
    hostGet .mem loc ⟨s, false⟩ = .ok v := by
  simp [hostGet, Vm.duringExec, h]

end Sys2Proof.Machine

namespace Sys2Proof.Claims

open Machine

/-- Settles O8: an ended run, an error and every phase of an instruction leave the code store. -/
theorem noStepChangesTheCode : Obligations.NoStepChangesTheCode :=
  fun _ _ h => step_code h

/-- Settles O45: the store is in range, so it is made, and a load then reads the bytes it wrote. -/
theorem loadReturnsTheLatestStore : Obligations.LoadReturnsTheLatestStore := by
  intro s a v hs ha
  have hw := s.memWrite_of_lt ha v
  exact ⟨_, hw, State.memWrite_wf hs hw, fun b _ => State.memRead_of_memWrite hs hw b⟩

/-- Settles O54: before `exec` the host's `set` and `get` are the machine's own accesses. -/
theorem hostReadsBackWhatItSet : Obligations.HostReadsBackWhatItSet := by
  rintro ⟨s, _⟩ loc v hm rfl
  constructor
  · intro hl
    refine ⟨_, hostSet_reg_of_lt s hl v, ?_, rfl, rfl, rfl, rfl, rfl, rfl, fun r hr => ?_⟩
    · rw [hostGet_reg_of_lt _ hl, State.reg_setReg_self]
    · exact State.reg_setReg_of_ne _ (fun he => hr (congrArg Fin.val he)) v
  · intro hl
    have hw := s.memWrite_of_lt hl v
    refine ⟨_, hostSet_mem_of_memWrite hw, ?_, rfl, rfl, rfl, rfl, rfl, rfl, fun b hb => ?_⟩
    · exact hostGet_mem_of_memRead ((State.memRead_of_memWrite hm hw loc).trans (if_pos rfl))
    · exact (Memory.readWord_writeWord hm.1 loc.toNat b v).trans (if_neg hb)

end Sys2Proof.Claims
end

section
/-! Proofs about the encoding (spec/30_encoding.md): the layout of a word, the rotated immediate, decoding what
the encoder wrote, and the words the assembler emits. -/

namespace Sys2Proof

/-! ### Fields as numbers -/

theorem toNat_extractLsb' (w : Word) (lo n : Nat) : (w.extractLsb' lo n).toNat = Claims.bits w lo n := by
  rw [BitVec.extractLsb'_toNat, Nat.shiftRight_eq_div_pow, Claims.bits]

theorem getLsbD_iff_bits (w : Word) (k : Nat) : w.getLsbD k = true ↔ Claims.bits w k 1 = 1 := by
  rw [← BitVec.testBit_toNat, Nat.testBit_eq_decide_div_mod_eq, decide_eq_true_iff, Claims.bits, pow_one]

theorem regField_val (w : Word) (lo : Nat) : (regField w lo).val = Claims.bits w lo 4 :=
  toNat_extractLsb' w lo 4

/-- The rotation of R75 in arithmetic: rotating by less than the width needs no reduction of the count, and
what the shift left loses is what the reduction loses. -/
theorem toNat_expandImmediate (rot : BitVec 4) (val : BitVec 8) :
    (expandImmediate rot val).toNat = Claims.ror32 val.toNat (2 * rot.toNat) := by
  have hrot := rot.isLt
  have hval : val.toNat < 2 ^ 32 := by have := val.isLt; omega
  rw [expandImmediate, BitVec.toNat_rotateRight, BitVec.toNat_setWidth, Nat.mod_eq_of_lt hval,
    Nat.mod_eq_of_lt (by omega), Claims.ror32]
  split
  · next h => simp [h, Nat.shiftLeft_eq]
  · rw [Nat.or_mod_two_pow, Nat.mod_eq_of_lt (lt_of_le_of_lt (Nat.shiftRight_le ..) hval)]

/-! ### The operand in bits 11..0 -/

theorem decodeSrc2_of_immediate {w : Word} (h : w.getLsbD 24 = true) :
    decodeSrc2 w = .imm (expandImmediate (w.extractLsb' 8 4) (w.extractLsb' 0 8)) := if_pos h

theorem decodeSrc2_of_register {w : Word} (h : w.getLsbD 24 = false) :
    decodeSrc2 w = .reg (regField w 8) := if_neg (Bool.eq_false_iff.1 h)

theorem decodeSrc2_wellFormed (w : Word) : (decodeSrc2 w).wellFormed = true := by
  cases h : w.getLsbD 24 with
  | true => rw [decodeSrc2_of_immediate h]; exact encodable_expandImmediate _ _
  | false => rw [decodeSrc2_of_register h]; rfl

theorem immediate_decodeFields (c : Cond) (w : Word) : (decodeFields c w).immediate = w.getLsbD 24 := by
  cases h : w.getLsbD 24 with
  | true => simp only [Fields.immediate, decodeFields, decodeSrc2_of_immediate h]
  | false => simp only [Fields.immediate, decodeFields, decodeSrc2_of_register h]

/-- With the I flag, `value` is the expanded immediate and `ops2` is 0 (R72, R75). -/
theorem decodeFields_of_immediate (c : Cond) {w : Word} (h : w.getLsbD 24 = true) :
    (decodeFields c w).value = expandImmediate (w.extractLsb' 8 4) (w.extractLsb' 0 8) ∧
      (decodeFields c w).ops2 = 0 := by
  simp only [Fields.value, Fields.ops2, decodeFields, decodeSrc2_of_immediate h, and_self]

/-- Without the I flag, `ops2` is the register in bits 11..8 and `value` is 0 (R72). -/
theorem decodeFields_of_register (c : Cond) {w : Word} (h : w.getLsbD 24 = false) :
    (decodeFields c w).ops2 = regField w 8 ∧ (decodeFields c w).value = 0 := by
  simp only [Fields.value, Fields.ops2, decodeFields, decodeSrc2_of_register h, and_self]

theorem decodeWord_wellFormed {w : Word} {i : Instr} (h : decodeWord w = .ok i) : i.wellFormed = true := by
  obtain ⟨-, -, hf, hcall⟩ := decodeWord_eq_ok.1 h
  rw [Instr.wellFormed_iff, hf]
  refine ⟨decodeSrc2_wellFormed w, fun hop => ?_⟩
  rw [immediate_decodeFields]
  exact Bool.eq_true_of_not_eq_false fun hI => hcall ⟨hop, hI⟩

/-! ### The reserved bits -/

/-- The words agree on every bit but 25 and 26. -/
def AgreeOffReserved (w x : Word) : Prop := ∀ k < 32, k ≠ 25 → k ≠ 26 → w.getLsbD k = x.getLsbD k

theorem AgreeOffReserved.extractLsb'_eq {w x : Word} (h : AgreeOffReserved w x) {lo n : Nat}
    (hfield : lo + n ≤ 25 ∨ 27 ≤ lo ∧ lo + n ≤ 32) : w.extractLsb' lo n = x.extractLsb' lo n := by
  apply BitVec.eq_of_getLsbD_eq
  intro k hk
  rw [BitVec.getLsbD_extractLsb', BitVec.getLsbD_extractLsb',
    h (lo + k) (by omega) (by omega) (by omega)]

/-- No field the decoder reads reaches bits 25 and 26. -/
theorem AgreeOffReserved.decodeWord_eq {w x : Word} (h : AgreeOffReserved w x) :
    decodeWord w = decodeWord x := by
  have hcond : w.extractLsb' 28 4 = x.extractLsb' 28 4 := h.extractLsb'_eq (by omega)
  have hop : w.extractLsb' 20 4 = x.extractLsb' 20 4 := h.extractLsb'_eq (by omega)
  have hdst : w.extractLsb' 16 4 = x.extractLsb' 16 4 := h.extractLsb'_eq (by omega)
  have hops1 : w.extractLsb' 12 4 = x.extractLsb' 12 4 := h.extractLsb'_eq (by omega)
  have hhigh : w.extractLsb' 8 4 = x.extractLsb' 8 4 := h.extractLsb'_eq (by omega)
  have hlow : w.extractLsb' 0 8 = x.extractLsb' 0 8 := h.extractLsb'_eq (by omega)
  have hs : w.getLsbD 27 = x.getLsbD 27 := h 27 (by omega) (by omega) (by omega)
  have hi : w.getLsbD 24 = x.getLsbD 24 := h 24 (by omega) (by omega) (by omega)
  have hfields (c : Cond) : decodeFields c w = decodeFields c x := by
    simp only [decodeFields, decodeSrc2, regField, hdst, hops1, hhigh, hlow, hs, hi]
  simp only [decodeWord, hcond, hop, hi, hfields]

theorem encodeWord_reserved {i : Instr} {w : Word} (h : encodeWord i = some w) {k : Nat}
    (hk : k = 25 ∨ k = 26) : w.getLsbD k = false := by
  simp only [encodeWord, encodeFields, Option.map_eq_some_iff] at h
  obtain ⟨low, -, rfl⟩ := h
  exact packWord_reserved _ _ _ _ _ _ _ hk

/-! ### The immediate -/

theorem encodable_iff {v : Word} :
    encodable v = true ↔ ∃ rot < 16, (v.rotateLeft (2 * rot)).toNat ≤ 255 := by
  simp [encodable]

theorem encodeImmediate_eq_none {v : Word} (h : ∀ rot < 16, 255 < (v.rotateLeft (2 * rot)).toNat) :
    encodeImmediate v = none := by
  rw [← Option.not_isSome_iff_eq_none, encodeImmediate_isSome, encodable_iff]
  rintro ⟨rot, hlt, hle⟩
  exact absurd (h rot hlt) (by omega)

/-- Where a search through `0, 1, …` finds an answer at `a`, every number before `a` had none. -/
theorem findSome?_range_least {α : Type} {g : Nat → Option α} {n : Nat} {b : α}
    (h : (List.range n).findSome? g = some b) : ∃ a < n, g a = some b ∧ ∀ j < a, g j = none := by
  induction n with
  | zero => cases h
  | succ n ih =>
    rw [List.range_succ, List.findSome?_append] at h
    cases hn : (List.range n).findSome? g with
    | some c =>
      rw [hn] at h
      obtain ⟨a, ha, hfound⟩ := ih (hn.trans h)
      exact ⟨a, by omega, hfound⟩
    | none =>
      refine ⟨n, n.lt_succ_self, by simpa [hn] using h, fun j hj => ?_⟩
      exact List.findSome?_eq_none_iff.1 hn j (List.mem_range.2 hj)

/-- The pair is the rotated constant at the first rotation that fits it in eight bits. -/
theorem encodeImmediate_least {v : Word} {rot : BitVec 4} {val : BitVec 8}
    (h : encodeImmediate v = some (rot, val)) :
    (v.rotateLeft (2 * rot.toNat)).toNat = val.toNat ∧
      ∀ j < rot.toNat, 255 < (v.rotateLeft (2 * j)).toNat := by
  obtain ⟨a, ha, hfound, hleast⟩ := findSome?_range_least h
  obtain ⟨hle, hpair⟩ := Option.ite_none_right_eq_some.1 hfound
  cases hpair
  rw [BitVec.toNat_ofNat, Nat.mod_eq_of_lt ha, BitVec.toNat_setWidth, Nat.mod_eq_of_lt (by omega)]
  refine ⟨rfl, fun j hj => ?_⟩
  have hnone := hleast j hj
  by_contra hsmall
  rw [if_pos (by omega)] at hnone
  cases hnone

end Sys2Proof

namespace Sys2Proof.Laws.Canonical

/-- Every constructor has its lemma. -/
theorem statement : ∀ i : Instr, Statement i
  | .mov f => mov f
  | .add f => add f
  | .sub f => sub f
  | .rsb f => rsb f
  | .mul f => mul f
  | .div f => div f
  | .and f => and f
  | .xor f => xor f
  | .orr f => orr f
  | .lsl f => lsl f
  | .lsr f => lsr f
  | .cmp f => cmp f
  | .ldm f => ldm f
  | .stm f => stm f
  | .call f => call f
  | .ret f => ret f

end Sys2Proof.Laws.Canonical

namespace Sys2Proof

/-! ### Unused fields and the encoder -/

theorem Instr.canonical_canonicalize {i : Instr} (h : i.wellFormed = true) :
    i.canonicalize.canonical = true := (Laws.Canonical.statement i).1 h

theorem Instr.canonicalize_of_canonical {i : Instr} (h : i.canonical = true) : i.canonicalize = i :=
  (Laws.Canonical.statement i).2 h

theorem Instr.canonical_iff {i : Instr} :
    i.canonical = true ↔ i.wellFormed = true ∧ i.unusedZero = true := Bool.and_eq_true_iff

theorem Instr.unusedZero_canonicalize (i : Instr) : i.canonicalize.unusedZero = true := by
  cases i with
  | mov f | ldm f | stm f => obtain ⟨_, _, _, _, _ | _⟩ := f <;> rfl
  | _ f => rfl

/-- The immediate of a `call` is no unused field. -/
theorem Instr.immediate_canonicalize_of_call {i : Instr} (h : i.op = .call) :
    i.canonicalize.fields.immediate = i.fields.immediate := by
  cases i with
  | call f => rfl
  | _ f => cases h

/-- A word the encoder writes decodes to the instruction with 0 in its unused fields. -/
theorem decodeWord_encodeWord {i : Instr} {w : Word} (h : encodeWord i = some w)
    (hcall : i.op = .call → i.fields.immediate = true) : decodeWord w = .ok i.canonicalize := by
  have hcall' : i.op = .call → i.canonicalize.fields.immediate = true := fun hop =>
    (Instr.immediate_canonicalize_of_call hop).trans (hcall hop)
  rw [decodeWord_encodeFields h hcall', ← Instr.op_canonicalize, Instr.make_op_fields]

/-- Every instruction some word decodes to is encoded. -/
theorem exists_decodeWord_encodeWord {i : Instr} (h : i.wellFormed = true) :
    ∃ w, encodeWord i = some w ∧ decodeWord w = .ok i.canonicalize := by
  obtain ⟨hwf, -⟩ := Instr.canonical_iff.1 (Instr.canonical_canonicalize h)
  obtain ⟨hsrc, -⟩ := (Instr.wellFormed_iff _).1 hwf
  obtain ⟨w, hw⟩ := encodeFields_of_wellFormed i.op hsrc
  exact ⟨w, hw, decodeWord_encodeWord hw ((Instr.wellFormed_iff i).1 h).2⟩

/-- What the encoder wrote and the decoder accepts is canonical, whatever the instruction held in its unused
fields. -/
theorem canonical_of_decodeWord_canonicalize {i : Instr} {w : Word}
    (h : decodeWord w = .ok i.canonicalize) : i.canonicalize.canonical = true :=
  Instr.canonical_iff.2 ⟨decodeWord_wellFormed h, i.unusedZero_canonicalize⟩

end Sys2Proof

namespace Sys2Proof.Machine

open Claims

/-! ### Execution -/

/-- No phase of an instruction reads a field R81 calls unused: `mov`, `ldm` and `stm` read one source, `cmp`
reads no second one, and phase L passes `call` and `ret` by. -/
theorem exec_canonicalize (i : Instr) (s : State) : exec i.canonicalize s = exec i s := by
  cases i with
  | mov f | ldm f | stm f => obtain ⟨_, _, _, _, _ | _⟩ := f <;> rfl
  | _ f => rfl

/-! ### The slot R15 names -/

section
variable {s : State} {w : Word} {pre post : List Byte} (h : AtSlot s w pre post)
include h

theorem codeWord_of_atSlot : codeWord s.code (s.reg 15).toNat = w := by
  rw [h.code, List.append_assoc]
  exact (codeWord_append pre post _ _ _ _ _ h.slot).trans (wordOfBytes_extract w)

theorem lt_nslot_of_atSlot : (s.reg 15).toNat < s.nslot := by
  have hlen : s.code.length = pre.length + 4 + post.length := by
    rw [h.code, List.length_append, List.length_append]; rfl
  have hslot := h.slot
  rw [State.nslot]
  omega

theorem step_of_atSlot {i : Instr} (hd : decodeWord w = .ok i) : step s = exec i s :=
  step_of_decode h.running h.whole (lt_nslot_of_atSlot h) ((codeWord_of_atSlot h).symm ▸ hd)

/-- Another word in the same slot. -/
theorem atSlot_setCode (x : Word) :
    AtSlot { s with code := pre ++ bytesOfWord x ++ post } x pre post where
  running := h.running
  whole := by
    have hwhole := h.whole
    rw [h.code] at hwhole
    simpa [bytesOfWord] using hwhole
  code := rfl
  slot := h.slot

end

/-! ### Code slot by slot -/

/-- The code is whole slots, and the word in each of them satisfies `p`. -/
def EverySlot (p : Word → Prop) (code : List Byte) : Prop :=
  code.length % 4 = 0 ∧ ∀ slot, 4 * slot < code.length → p (codeWord code slot)

theorem codeWord_bytesOfWord_zero (w : Word) (code : List Byte) :
    codeWord (bytesOfWord w ++ code) 0 = w :=
  (codeWord_append [] code 0 _ _ _ _ rfl).trans (wordOfBytes_extract w)

theorem codeWord_bytesOfWord_succ (w : Word) (code : List Byte) (slot : Nat) :
    codeWord (bytesOfWord w ++ code) (slot + 1) = codeWord code slot := by
  simp [codeWord, bytesOfWord, Nat.mul_add, Nat.add_right_comm _ 4]

theorem EverySlot.bytesOfWord_append {p : Word → Prop} {code : List Byte} (hcode : EverySlot p code)
    {w : Word} (hw : p w) : EverySlot p (bytesOfWord w ++ code) := by
  obtain ⟨hlen, hslots⟩ := hcode
  have hlength : (bytesOfWord w ++ code).length = code.length + 4 :=
    List.length_append.trans (Nat.add_comm _ _)
  refine ⟨by rw [hlength]; omega, fun slot hslot => ?_⟩
  cases slot with
  | zero => rwa [codeWord_bytesOfWord_zero]
  | succ slot =>
    rw [codeWord_bytesOfWord_succ]
    exact hslots slot (by omega)

theorem everySlot_flatten {p : Word → Prop} {bss : List (List Byte)}
    (h : ∀ bs ∈ bss, ∃ w, bs = bytesOfWord w ∧ p w) : EverySlot p bss.flatten := by
  induction bss with
  | nil => exact ⟨rfl, fun _ hslot => absurd hslot (Nat.not_lt_zero _)⟩
  | cons bs bss ih =>
    rw [List.forall_mem_cons] at h
    obtain ⟨⟨w, rfl, hw⟩, hrest⟩ := h
    exact (ih hrest).bytesOfWord_append hw

/-! ### The assembler -/

theorem mem_of_mapExcept {α β ε : Type} {f : α → Except ε β} {xs : List α} {ys : List β}
    (h : mapExcept f xs = .ok ys) {y : β} (hy : y ∈ ys) : ∃ x ∈ xs, f x = .ok y := by
  induction xs generalizing ys with
  | nil => cases h; cases hy
  | cons x xs ih =>
    rw [mapExcept] at h
    split at h
    · cases h
    · next z hz =>
      split at h
      · cases h
      · next zs hzs =>
        cases h
        rcases List.mem_cons.1 hy with rfl | hy
        · exact ⟨x, List.mem_cons_self, hz⟩
        · obtain ⟨x', hx', hfx'⟩ := ih hzs hy
          exact ⟨x', List.mem_cons_of_mem _ hx', hfx'⟩

/-- The target of a `call` is a label (R99). -/
def AsmInstr.callsLabel (i : AsmInstr) : Prop := i.op = .call → ∃ n, i.src = .label n

theorem parseOneSource_op {m td ts : Text} {op : Opcode} {c : Cond} {s : Bool} {i : AsmInstr}
    (h : parseOneSource m op c s td ts = .ok i) : i.op = op := by
  unfold parseOneSource at h
  repeat' split at h
  all_goals (cases h <;> rfl)

theorem parseTwoSource_op {m td ta tb : Text} {op : Opcode} {c : Cond} {s : Bool} {i : AsmInstr}
    (h : parseTwoSource m op c s td ta tb = .ok i) : i.op = op := by
  unfold parseTwoSource at h
  repeat' split at h
  all_goals (cases h <;> rfl)

theorem parseCompare_op {m ta tb : Text} {c : Cond} {s : Bool} {i : AsmInstr}
    (h : parseCompare m c s ta tb = .ok i) : i.op = .cmp := by
  unfold parseCompare at h
  repeat' split at h
  all_goals (cases h <;> rfl)

theorem parseCall_eq_ok {t : Text} {c : Cond} {s : Bool} {i : AsmInstr} (h : parseCall c s t = .ok i) :
    i.op = .call ∧ ∃ n, i.src = .label n := by
  unfold parseCall at h
  split at h <;> cases h
  exact ⟨rfl, _, rfl⟩

theorem formOf_eq_compare {op : Opcode} (h : formOf op = .compare) : op = .cmp := by
  cases op with
  | cmp => rfl
  | _ => cases h

theorem formOf_eq_target {op : Opcode} (h : formOf op = .target) : op = .call := by
  cases op with
  | call => rfl
  | _ => cases h

theorem parseReal_op {m : Text} {op : Opcode} {c : Cond} {s : Bool} {args : List Text} {i : AsmInstr}
    (h : parseReal m op c s args = .ok i) : i.op = op := by
  unfold parseReal at h
  split at h
  · exact parseOneSource_op h
  · cases h
  · exact parseTwoSource_op h
  · cases h
  · next hform => exact (parseCompare_op h).trans (formOf_eq_compare hform).symm
  · cases h
  · next hform => exact (parseCall_eq_ok h).1.trans (formOf_eq_target hform).symm
  · cases h
  · cases h; rfl
  · cases h

theorem parseReal_callsLabel {m : Text} {op : Opcode} {c : Cond} {s : Bool} {args : List Text}
    {i : AsmInstr} (h : parseReal m op c s args = .ok i) : i.callsLabel := by
  intro hi
  obtain rfl : op = .call := (parseReal_op h).symm.trans hi
  match args with
  | [_] => exact (parseCall_eq_ok h).2
  | [] | _ :: _ :: _ => cases h

theorem op_ne_call_of_pushExpansion (r : Reg) : ∀ j ∈ pushExpansion r, j.op ≠ .call := by
  simp [pushExpansion, Instr.op]

theorem op_ne_call_of_popExpansion (r : Reg) : ∀ j ∈ popExpansion r, j.op ≠ .call := by
  simp [popExpansion, Instr.op]

theorem parsePseudo_callsLabel {m : Text} {expand : Reg → List Instr} {c : Cond} {s : Bool}
    {args : List Text} {is : List AsmInstr} (hexpand : ∀ r, ∀ j ∈ expand r, j.op ≠ .call)
    (h : parsePseudo m expand c s args = .ok is) : ∀ i ∈ is, i.callsLabel := by
  unfold parsePseudo at h
  repeat' split at h
  all_goals cases h
  intro i hi hop
  obtain ⟨j, hj, rfl⟩ := List.mem_map.1 hi
  exact absurd hop (hexpand _ j hj)

theorem parseInstrs_callsLabel {m : Text} {args : List Text} {is : List AsmInstr}
    (h : parseInstrs m args = .ok is) : ∀ i ∈ is, i.callsLabel := by
  intro i hi
  unfold parseInstrs at h
  split at h
  split at h
  · cases h
  · exact parsePseudo_callsLabel op_ne_call_of_pushExpansion h i hi
  · exact parsePseudo_callsLabel op_ne_call_of_popExpansion h i hi
  · split at h
    · cases h
    · next j hj =>
      cases h
      obtain rfl := List.mem_singleton.1 hi
      exact parseReal_callsLabel hj

theorem parseLine_eq_ok {line : Text} {l : Line} (h : parseLine line = .ok l) :
    lineInstrs l = [] ∨ ∃ m args, parseInstrs m args = .ok (lineInstrs l) := by
  have hlabel {n : Text} (hn : parseLabel n = .ok l) : lineInstrs l = [] := by
    unfold parseLabel at hn
    split at hn <;> cases hn
    rfl
  unfold parseLine at h
  split at h
  · cases h; exact .inl rfl
  all_goals
    split at h
    · exact .inl (hlabel h)
    · split at h <;> cases h
      exact .inr ⟨_, _, ‹_›⟩

/-- A resolved `call` holds its label's slot as an immediate (R100). -/
theorem resolve_call_immediate {labels : List (Text × Nat)} {i : AsmInstr} {j : Instr}
    (hi : i.callsLabel) (h : resolve labels i = .ok j) (hop : j.op = .call) :
    j.fields.immediate = true := by
  unfold resolve at h
  split at h
  · next hsrc =>
    cases h
    rw [Instr.op_make] at hop
    obtain ⟨n, hn⟩ := hi hop
    cases hsrc.symm.trans hn
  · cases h
    rw [Instr.fields_make]; rfl
  · split at h <;> cases h
    rw [Instr.fields_make]; rfl

theorem assembleInstrs_call_immediate {source : Text} {is : List Instr}
    (h : assembleInstrs source = .ok is) {i : Instr} (hi : i ∈ is) (hop : i.op = .call) :
    i.fields.immediate = true := by
  unfold assembleInstrs at h
  split at h
  · cases h
  · next lines hlines =>
    split at h
    · cases h
    · obtain ⟨a, ha, hres⟩ := mem_of_mapExcept h hi
      obtain ⟨l, hl, hal⟩ := List.mem_flatMap.1 ha
      obtain ⟨line, -, hline⟩ := mem_of_mapExcept hlines hl
      refine resolve_call_immediate ?_ hres hop
      rcases parseLine_eq_ok hline with hnil | ⟨m, args, hparse⟩
      · rw [hnil] at hal; cases hal
      · exact parseInstrs_callsLabel hparse a hal

theorem emit_eq_ok {i : Instr} {bs : List Byte} (h : emit i = .ok bs) :
    ∃ w, bs = bytesOfWord w ∧ encodeWord i = some w := by
  unfold emit at h
  split at h
  · next hbs =>
    cases h
    obtain ⟨w, hw, rfl⟩ := Option.map_eq_some_iff.1 hbs
    exact ⟨w, rfl, hw⟩
  · cases h

/-- The words an accepted source is assembled to: the encodings of its instructions, slot by slot. -/
theorem assemble_eq_ok {source : Text} {code : List Byte} (h : assemble source = .ok code) :
    ∃ is, assembleInstrs source = .ok is ∧
      EverySlot (fun w => ∃ i ∈ is, encodeWord i = some w) code := by
  unfold assemble at h
  split at h
  · cases h
  · next is his =>
    split at h
    · cases h
    · next bss hbss =>
      cases h
      refine ⟨is, his, everySlot_flatten fun bs hbs => ?_⟩
      obtain ⟨i, hi, hemit⟩ := mem_of_mapExcept hbss hbs
      obtain ⟨w, hw, henc⟩ := emit_eq_ok hemit
      exact ⟨w, hw, i, hi, henc⟩

end Sys2Proof.Machine

namespace Sys2Proof.Claims

open Machine

/-- Settles O15: what the encoder writes decodes to the instruction with 0 in its unused fields, and a canonical
instruction is that one already. -/
theorem decodeOfEncodeGivesTheInstructionBack : Obligations.DecodeOfEncodeGivesTheInstructionBack := by
  intro i hi
  obtain ⟨hwf, -⟩ := Instr.canonical_iff.1 hi
  obtain ⟨w, hw, hd⟩ := exists_decodeWord_encodeWord hwf
  rw [Instr.canonicalize_of_canonical hi] at hd
  exact ⟨bytesOfWord w, by rw [encode, hw]; rfl, rfl, decode_bytesOfWord hd⟩

/-- Settles O9: the decoder reads each field at its place, and each field's number is the arithmetic one. -/
theorem decodedFieldsFollowTheLayout : Obligations.DecodedFieldsFollowTheLayout := by
  intro w i h
  obtain ⟨hcond, hop, hf, -⟩ := decodeWord_eq_ok.1 h
  have himm : i.fields.immediate = w.getLsbD 24 := by rw [hf, immediate_decodeFields]
  refine ⟨?cond, ?sFlag, ?op, ?dst, ?ops1, ?immediate, ?value, ?ops2⟩
  case cond => rw [← hcond, toNat_extractLsb']
  case sFlag => rw [hf]; exact getLsbD_iff_bits w 27
  case op => rw [← hop, toNat_extractLsb']
  case dst => rw [hf]; exact regField_val w 16
  case ops1 => rw [hf]; exact regField_val w 12
  case immediate => rw [himm]; exact getLsbD_iff_bits w 24
  case value =>
    intro hI
    obtain ⟨hvalue, hops2⟩ := decodeFields_of_immediate i.fields.cond (himm.symm.trans hI)
    rw [hf, hvalue, toNat_expandImmediate, toNat_extractLsb', toNat_extractLsb']
    exact ⟨rfl, hops2⟩
  case ops2 =>
    intro hI
    obtain ⟨hops2, hvalue⟩ := decodeFields_of_register i.fields.cond (himm.symm.trans hI)
    rw [hf, hops2, regField_val]
    exact ⟨rfl, hvalue⟩

/-- Settles O11: no field the decoder reads reaches bits 25 and 26, and the code store reaches an instruction
through the decoder alone. -/
theorem reservedBitsAreIgnoredAndWrittenZero : Obligations.ReservedBitsAreIgnoredAndWrittenZero := by
  refine ⟨fun w x hwx => ?_, fun i w h =>
    ⟨encodeWord_reserved h (.inl rfl), encodeWord_reserved h (.inr rfl)⟩⟩
  have hdec : decodeWord w = decodeWord x := AgreeOffReserved.decodeWord_eq hwx
  refine ⟨hdec, fun s pre post i hs hd => ?_⟩
  obtain ⟨t, ht⟩ := exec_next i s
  refine ⟨t, (step_of_atSlot hs hd).trans ht, ?_⟩
  rw [step_of_atSlot (atSlot_setCode hs x) (hdec.symm.trans hd)]
  exact exec_setCode ht _

/-- Settles O12: the encoder fails exactly where no rotation serves, and its answer expands to the constant. -/
theorem immediateEncodingIsClosed : Obligations.ImmediateEncodingIsClosed := by
  refine fun v => ⟨fun h => ?_, encodeImmediate_eq_none⟩
  obtain ⟨rot, val, henc, hexp⟩ := encodeImmediate_of_encodable (encodable_iff.2 h)
  exact ⟨(rot, val), henc, hexp⟩

/-- Settles O13: the encoder searches the rotations from 0 up. -/
theorem immediateEncodingTakesTheSmallestRotation :
    Obligations.ImmediateEncodingTakesTheSmallestRotation :=
  fun _ _ _ h => encodeImmediate_least h

/-- Settles O14: an expanded immediate is encodable, and the decoder rejects `call` with a register. -/
theorem decodedInstructionIsWellFormed : Obligations.DecodedInstructionIsWellFormed :=
  fun _ _ h => decodeWord_wellFormed h

/-- Settles O16: no phase reads an unused field, and the encoder zeroes them before it writes the word. -/
theorem unusedFieldsAreIgnored : Obligations.UnusedFieldsAreIgnored :=
  fun i => ⟨fun s => (exec_canonicalize i s).symm, exists_decodeWord_encodeWord⟩

/-- Settles O53: every word of the code is an instruction's encoding, and a `call` reaches the encoder with its
label's slot as its immediate, so each decodes to the canonical form. -/
theorem assembledCodeIsWholeSlotsOfInstructions : Obligations.AssembledCodeIsWholeSlotsOfInstructions := by
  intro source code h
  obtain ⟨is, his, hlen, hslots⟩ := assemble_eq_ok h
  refine ⟨hlen, fun slot hslot => ?_⟩
  obtain ⟨i, hi, henc⟩ := hslots slot hslot
  have hd := decodeWord_encodeWord henc (assembleInstrs_call_immediate his hi)
  exact ⟨i.canonicalize, hd, canonical_of_decodeWord_canonicalize hd⟩

end Sys2Proof.Claims
end

section
/-! Proofs about the step and the condition (spec/40_step_and_condition.md): the skip decision against the
table, what a skip leaves, the condition word after an instruction, and R15 after it. -/

namespace Sys2Proof.Machine

open Claims

/-! ### The condition -/

/-- The skip decision is the complement of the table's last column (spec/30_encoding.md R79). -/
theorem skips_eq_false_iff {cond : Cond} {cv : Word} : skips cond cv = false ↔ Executes cond cv := by
  cases cond <;> simp [skips, skipsBy, Config.condTable, Executes]

theorem skips_of_not_executes {cond : Cond} {cv : Word} (h : ¬ Executes cond cv) :
    skips cond cv = true :=
  eq_true_of_ne_false fun hs => h (skips_eq_false_iff.1 hs)

/-- Phase P in a slot no jump has left. -/
theorem State.advancePc_reg_self (s : State) :
    s.advancePc (s.reg 15) = s.setReg 15 (s.reg 15 + 1) :=
  if_pos rfl

/-! ### The condition word after an instruction -/

theorem Opcode.mode_eq_branching {o : Opcode} : o.mode = .branching ↔ o = .call ∨ o = .ret := by
  cases o <;> decide

/-- Where phase X has not written `cv`, phase L leaves a nonzero one only by the S latch of an instruction
outside mode Branching. -/
theorem latch_cv_ne_zero {i : Instr} {u : State} (hu : u.cv = 0)
    (h : (u.latch i.op.mode i.fields).cv ≠ 0) :
    i.fields.sFlag = true ∧ i.op ≠ .call ∧ i.op ≠ .ret := by
  rw [State.latch_cv] at h
  split at h
  · next hlatch =>
    obtain ⟨hmode, hflag⟩ := hlatch
    exact ⟨hflag, not_or.1 (mt Opcode.mode_eq_branching.2 hmode)⟩
  · exact absurd hu h

/-! ### The program counter after an instruction -/

/-- Phase P never leaves the slot it started from: the next slot differs from it, also where it wraps. -/
theorem State.advancePc_pc_ne (s : State) (b : Word) : (s.advancePc b).reg 15 ≠ b := by
  rw [State.advancePc_pc]
  split
  · exact fun h => by bv_omega
  · assumption

/-! ### Decoding the bytes of a slot -/

/-- A stream that begins with the bytes of a word decodes as that word does, and leaves the rest. -/
theorem decode_bytesOfWord_eq_ok {w : Word} {post rest : List Byte} {i : Instr} :
    decode (bytesOfWord w ++ post) = .ok (i, rest) ↔ decodeWord w = .ok i ∧ rest = post := by
  cases hd : decodeWord w with
  | ok j => rw [decode_bytesOfWord hd]; simp [eq_comm]
  | error e => simp [decode, bytesOfWord, hd]

theorem drop_code_of_atSlot {s : State} {w : Word} {pre post : List Byte} (h : AtSlot s w pre post) :
    s.code.drop (4 * (s.reg 15).toNat) = bytesOfWord w ++ post := by
  rw [h.code, ← h.slot, List.append_assoc, List.drop_left]

end Sys2Proof.Machine

namespace Sys2Proof.Claims

open Machine

/-- Settles O18: a skip clears `cv`, and the clear has left R15 in its own slot, so phase P advances it. -/
theorem skippedInstructionOnlyClearsCvAndAdvances :
    Obligations.SkippedInstructionOnlyClearsCvAndAdvances := by
  intro i s h
  rw [exec_of_skips (skips_of_not_executes h)]
  exact congrArg _ s.clearCv.advancePc_reg_self

/-- Settles O20: phase C clears `cv`, and after it only phase X of `cmp` and the S latch write it. -/
theorem onlyCmpAndTheSFlagLeaveAConditionWord :
    Obligations.OnlyCmpAndTheSFlagLeaveAConditionWord := by
  intro i s t h hcv
  rcases exec_cases h with ⟨-, rfl⟩ | ⟨hs, ⟨u, hu, rfl⟩ | ⟨e, -, rfl⟩ | ⟨-, rfl⟩⟩
  · simp at hcv
  · refine ⟨skips_eq_false_iff.1 hs, ?_⟩
    rw [State.advancePc_cv] at hcv
    obtain ⟨-, -, -, hkept | hcmp, -⟩ := effect_normal hu
    · exact .inr (latch_cv_ne_zero hkept hcv)
    · exact .inl hcmp
  · simp at hcv
  · simp at hcv

/-- Settles O26: an error or the halt changes a running status, and every other instruction ends in phase P. -/
theorem noInstructionStaysInItsSlot : Obligations.NoInstructionStaysInItsSlot := by
  intro i s t h _ hrun
  rcases exec_cases h with ⟨-, rfl⟩ | ⟨-, ⟨u, -, rfl⟩ | ⟨e, -, rfl⟩ | ⟨-, rfl⟩⟩
  · exact State.advancePc_pc_ne _ _
  · exact State.advancePc_pc_ne _ _
  · cases hrun
  · cases hrun

/-- Settles O2: the bytes at the slot are those of its word, so the stream decodes as the fetched word does. -/
theorem stepRunsTheDecodedInstruction : Obligations.StepRunsTheDecodedInstruction := by
  intro s w pre post rest i hs hdec
  rw [drop_code_of_atSlot hs] at hdec
  obtain ⟨hd, hrest⟩ := decode_bytesOfWord_eq_ok.1 hdec
  exact ⟨decodeWord_wellFormed hd, hrest, step_of_atSlot hs hd⟩

end Sys2Proof.Claims
end

section
/-! Proofs about the data-processing instructions (spec/41_data_processing.md): what each operation computes,
what an executed instruction leaves around the write of its destination, and the two together. -/

namespace Sys2Proof.Machine

open Claims

/-! ### The arithmetic (spec/41_data_processing.md R142 to R153) -/

theorem toNat_aluAdd (a b : Word) : (aluAdd a b).toNat = (a.toNat + b.toNat) % 2 ^ 32 :=
  BitVec.toNat_add a b

theorem toNat_aluSub (a b : Word) :
    (aluSub a b).toNat = if b.toNat ≤ a.toNat then a.toNat - b.toNat else a.toNat + 2 ^ 32 - b.toNat := by
  have ha := a.isLt
  have hb := b.isLt
  rw [aluSub, BitVec.toNat_sub]
  split <;> omega

theorem aluRsb_eq_aluSub (a b : Word) : aluRsb a b = aluSub b a := rfl

theorem toNat_aluMul (a b : Word) : (aluMul a b).toNat = a.toNat * b.toNat % 2 ^ 32 :=
  BitVec.toNat_mul a b

/-- The quotient of a pattern by a natural number fits the width. -/
theorem toNat_ofNat_toNat_div (a : Word) (n : Nat) : (BitVec.ofNat 32 (a.toNat / n)).toNat = a.toNat / n := by
  rw [BitVec.toNat_ofNat, Nat.mod_eq_of_lt (Nat.lt_of_le_of_lt (Nat.div_le_self _ _) a.isLt)]

theorem toNat_aluDiv (a b : Word) : (aluDiv a b).toNat = a.toNat / b.toNat :=
  toNat_ofNat_toNat_div a b.toNat

theorem getLsbD_aluAnd (a b : Word) (k : Nat) : (aluAnd a b).getLsbD k = (a.getLsbD k && b.getLsbD k) :=
  BitVec.getLsbD_and

theorem getLsbD_aluXor (a b : Word) (k : Nat) : (aluXor a b).getLsbD k = (a.getLsbD k != b.getLsbD k) :=
  BitVec.getLsbD_xor

theorem getLsbD_aluOrr (a b : Word) (k : Nat) : (aluOrr a b).getLsbD k = (a.getLsbD k || b.getLsbD k) :=
  BitVec.getLsbD_or

theorem toNat_aluLsl (a n : Word) :
    (aluLsl a n).toNat = if 32 ≤ n.toNat then 0 else a.toNat * 2 ^ n.toNat % 2 ^ 32 := by
  rw [aluLsl, apply_ite BitVec.toNat, BitVec.toNat_ofNat]; rfl

theorem toNat_aluLsr (a n : Word) :
    (aluLsr a n).toNat = if 32 ≤ n.toNat then 0 else a.toNat / 2 ^ n.toNat := by
  rw [aluLsr, apply_ite BitVec.toNat, toNat_ofNat_toNat_div]; rfl

theorem toInt_cmpDifference (a b : Word) :
    (cmpDifference a b).toInt = (a.toInt - b.toInt).bmod (2 ^ 32) :=
  BitVec.toInt_sub

/-! ### The executed instruction -/

theorem State.src1_eq_soleSource (s : State) (f : Fields) : s.src1 f = soleSource s f := s.src1_eq f

theorem State.src2_eq_secondSource (s : State) (f : Fields) : s.src2 f = secondSource s f := s.src2_eq f

section
variable {i : Instr} {s : State} (hx : Executes i.fields.cond s.cv)
include hx

/-- An executed instruction whose phase X ends normally goes through phases L and P. -/
theorem exec_of_effect_normal {u : State} (h : effect i s.clearCv = .normal u) :
    exec i s = .next ((u.latch i.op.mode i.fields).advancePc (s.reg 15)) := by
  rw [exec_of_not_skips (skips_eq_false_iff.2 hx), h]; rfl

/-- Phase L reads the destination phase X wrote, and phase P moves R15 on unless that write was a jump. -/
theorem exec_wrote {v : Word} (hm : i.op.mode ≠ .branching)
    (h : effect i s.clearCv = .normal (s.clearCv.setReg i.fields.dst v)) :
    ∃ t, exec i s = .next t ∧ Wrote i.fields s v t := by
  refine ⟨_, exec_of_effect_normal hx h, ?_⟩
  constructor
  case result =>
    intro hd
    simp [hd, hd.symm]
  case jump =>
    intro hd
    simp [hd, slotAfter]
  case cv => simp [State.latch_cv, hm]
  case others =>
    intro r hr h15
    simp [hr, h15]
  case callStack | status | mem | code => simp

end

/-! ### The two-source instructions -/

section
variable {op : Opcode} {g : Word → Word → Word} (hm : op.mode ≠ .branching)
  (he : ∀ f, effect (Instr.make op f) = writeAlu g f)
include hm he

/-- An instruction whose phase X writes `g` of its two sources, executed. -/
theorem exec_make_wrote {f : Fields} {s : State} (hx : Executes f.cond s.cv) :
    ∃ t, exec (Instr.make op f) s = .next t ∧ Wrote f s (g (s.reg f.ops1) (secondSource s f)) t := by
  have heffect : effect (Instr.make op f) s.clearCv =
      .normal (s.clearCv.setReg f.dst (g (s.reg f.ops1) (secondSource s f))) := by
    rw [he, writeAlu, State.reg_clearCv, State.src2_clearCv, State.src2_eq_secondSource]
  have hwrote := exec_wrote (i := Instr.make op f) (by rwa [Instr.fields_make]) (by rwa [Instr.op_make])
    (by rwa [Instr.fields_make])
  rwa [Instr.fields_make] at hwrote

theorem writesUnsigned_make {h : Nat → Nat → Nat} (hg : ∀ a b, (g a b).toNat = h a.toNat b.toNat) :
    WritesUnsigned (Instr.make op) h := by
  intro f s hx
  obtain ⟨t, ht, hw⟩ := exec_make_wrote hm he hx
  exact ⟨_, t, ht, hw, hg _ _⟩

theorem writesBitwise_make {h : Bool → Bool → Bool}
    (hg : ∀ a b k, (g a b).getLsbD k = h (a.getLsbD k) (b.getLsbD k)) :
    WritesBitwise (Instr.make op) h := by
  intro f s hx
  obtain ⟨t, ht, hw⟩ := exec_make_wrote hm he hx
  exact ⟨_, t, ht, hw, fun k _ => hg _ _ k⟩

end

end Sys2Proof.Machine

namespace Sys2Proof.Claims

open Machine

/-- Settles O29: phase X of `mov` is the write of its one source. -/
theorem movWritesItsSource : Obligations.MovWritesItsSource := by
  intro f s hx
  refine exec_wrote (i := .mov f) hx nofun ?_
  rw [effect, effectMov, State.src1_clearCv, State.src1_eq_soleSource]; rfl

/-- Settles O30: phase X writes the machine's sum, which wraps at the width. -/
theorem addWritesTheSum : Obligations.AddWritesTheSum :=
  writesUnsigned_make (op := .add) nofun (fun _ => rfl) toNat_aluAdd

/-- Settles O31: the difference of the patterns borrows 2^32 exactly when the second source is larger. -/
theorem subWritesTheDifference : Obligations.SubWritesTheDifference :=
  writesUnsigned_make (op := .sub) nofun (fun _ => rfl) toNat_aluSub

/-- Settles O32: `rsb` is `sub` with its sources exchanged. -/
theorem rsbWritesTheReverseDifference : Obligations.RsbWritesTheReverseDifference :=
  writesUnsigned_make (op := .rsb) nofun (fun _ => rfl) fun a b =>
    aluRsb_eq_aluSub a b ▸ toNat_aluSub b a

/-- Settles O33: the product of the patterns is kept at the width. -/
theorem mulWritesTheLowHalfOfTheProduct : Obligations.MulWritesTheLowHalfOfTheProduct :=
  writesUnsigned_make (op := .mul) nofun (fun _ => rfl) toNat_aluMul

/-- Settles O34: bit `k` of the pattern written is the conjunction of the sources' bits `k`. -/
theorem andWritesTheConjunction : Obligations.AndWritesTheConjunction :=
  writesBitwise_make (op := .and) nofun (fun _ => rfl) getLsbD_aluAnd

/-- Settles O35: bit `k` of the pattern written is the exclusive or of the sources' bits `k`. -/
theorem xorWritesTheExclusiveOr : Obligations.XorWritesTheExclusiveOr :=
  writesBitwise_make (op := .xor) nofun (fun _ => rfl) getLsbD_aluXor

/-- Settles O36: bit `k` of the pattern written is the disjunction of the sources' bits `k`. -/
theorem orrWritesTheDisjunction : Obligations.OrrWritesTheDisjunction :=
  writesBitwise_make (op := .orr) nofun (fun _ => rfl) getLsbD_aluOrr

/-- Settles O37: the whole count is compared with the width before the product is taken. -/
theorem lslShiftsLeftByTheWholeCount : Obligations.LslShiftsLeftByTheWholeCount :=
  writesUnsigned_make (op := .lsl) nofun (fun _ => rfl) toNat_aluLsl

/-- Settles O38: the whole count is compared with the width before the quotient is taken. -/
theorem lsrShiftsRightByTheWholeCount : Obligations.LsrShiftsRightByTheWholeCount :=
  writesUnsigned_make (op := .lsr) nofun (fun _ => rfl) toNat_aluLsr

/-- Settles O39: a second source that is not 0 passes the check, and the quotient fits the width. -/
theorem divWritesTheUnsignedQuotient : Obligations.DivWritesTheUnsignedQuotient := by
  intro f s hx hne
  have heffect : effect (.div f) s.clearCv =
      .normal (s.clearCv.setReg f.dst (aluDiv (s.reg f.ops1) (secondSource s f))) := by
    rw [effect, effectDiv_eq, State.src2_clearCv, State.src2_eq_secondSource, if_neg hne,
      State.reg_clearCv]
  obtain ⟨t, ht, hw⟩ := exec_wrote (i := .div f) hx nofun heffect
  exact ⟨_, t, ht, hw, toNat_aluDiv _ _⟩

/-- Settles O41: phase X of `cmp` writes `cv` alone, so phase L reads `R[dst]` as it was and R15 is still in
the own slot at phase P. -/
theorem cmpLeavesTheSignedDifference : Obligations.CmpLeavesTheSignedDifference := by
  intro f s hx
  refine ⟨_, exec_of_effect_normal (i := .cmp f) hx rfl, ?cv, by simp, fun r hr => by simp [hr],
    by simp, by simp, by simp, by simp⟩
  case cv =>
    rw [State.advancePc_cv, State.latch_cv]
    cases hflag : f.sFlag <;> simp [Instr.fields, Instr.op, Opcode.mode, hflag, toInt_cmpDifference]

end Sys2Proof.Claims
end

section
/-! Proofs about the data-transfer instructions (spec/42_data_transfer.md): the privacy of data memory, and
phase X of `ldm` and `stm` at an address in range. -/

namespace Sys2Proof.Machine

open Claims

/-! ### The privacy of data memory -/

/-- The state with another data memory. -/
def State.setMem (m : Memory) (s : State) : State := { s with mem := m }

@[simp] theorem State.reg_setMem (m : Memory) (s : State) (r : Reg) : (s.setMem m).reg r = s.reg r := rfl
@[simp] theorem State.setMem_cv (m : Memory) (s : State) : (s.setMem m).cv = s.cv := rfl
@[simp] theorem State.setMem_callStack (m : Memory) (s : State) :
    (s.setMem m).callStack = s.callStack := rfl
@[simp] theorem State.setMem_status (m : Memory) (s : State) : (s.setMem m).status = s.status := rfl
@[simp] theorem State.setMem_mem (m : Memory) (s : State) : (s.setMem m).mem = m := rfl
@[simp] theorem State.setMem_code (m : Memory) (s : State) : (s.setMem m).code = s.code := rfl

theorem unseen_setMem (m : Memory) : Unseen (State.setMem m) where
  reg _ _ := rfl
  cv _ := rfl
  setReg _ _ _ := rfl
  setCv _ _ := rfl
  raise _ _ := rfl
  haltRet _ := rfl

/-- Phase X of an instruction other than `ldm` and `stm` does not see data memory. -/
theorem effect_setMem {i : Instr} (hldm : ∀ f, i ≠ .ldm f) (hstm : ∀ f, i ≠ .stm f) (m : Memory)
    (s : State) : effect i (s.setMem m) = (effect i s).map (State.setMem m) := by
  cases i with
  | ldm f => exact absurd rfl (hldm f)
  | stm f => exact absurd rfl (hstm f)
  | call f =>
    rw [effect, effect, effectCall_eq, effectCall_eq, apply_ite (Effect.map (State.setMem m))]
    rfl
  | ret f =>
    rw [effect, effect]
    cases hc : s.callStack with
    | nil => rw [effectRet_nil hc, effectRet_nil (s := s.setMem m) hc]; rfl
    | cons v rest => rw [effectRet_cons hc, effectRet_cons (s := s.setMem m) hc]; rfl
  | _ f => exact (unseen_setMem m).effect_of_dataProcessing rfl s

/-- With its own memory put back in, the state is itself, so what follows holds that memory too. -/
theorem exec_mem {i : Instr} {s t : State} (hldm : ∀ f, i ≠ .ldm f) (hstm : ∀ f, i ≠ .stm f)
    (h : exec i s = .next t) : t.mem = s.mem := by
  have hsame := (unseen_setMem s.mem).exec (effect_setMem hldm hstm s.mem) h
  have ht : t = t.setMem s.mem := Host.Outcome.next.inj (h.symm.trans hsame)
  rw [ht, State.setMem_mem]

/-! ### Phase X of a transfer in range -/

section
variable {f : Fields} {s : State} (ha : (soleSource s f).toNat < Config.stackSize)
include ha

/-- Phase X of `ldm` at an address in range writes the word to the destination. -/
theorem effect_ldm_of_lt :
    effect (.ldm f) s.clearCv =
      .normal (s.clearCv.setReg f.dst (s.mem.readWord (soleSource s f).toNat)) := by
  rw [effect, effectLdm_eq, State.src1_clearCv, State.src1_eq_soleSource, if_pos ha,
    State.clearCv_mem]

/-- Phase X of `stm` at an address in range writes the word and no register. -/
theorem effect_stm_of_lt :
    effect (.stm f) s.clearCv =
      .normal (s.clearCv.setMem (s.mem.writeWord (soleSource s f).toNat (s.reg f.dst))) := by
  rw [effect, effectStm_eq, State.src1_clearCv, State.src1_eq_soleSource, if_pos ha]; rfl

end

end Sys2Proof.Machine

namespace Sys2Proof.Claims

open Machine

/-- Settles O22: replacing data memory commutes with every instruction but `ldm` and `stm`. -/
theorem onlyTransfersReachDataMemory : Obligations.OnlyTransfersReachDataMemory :=
  fun _ _ _ m hldm hstm h =>
    ⟨exec_mem hldm hstm h, (unseen_setMem m).exec (effect_setMem hldm hstm m) h⟩

/-- Settles O42: at an address in range phase X of `ldm` is a write of the destination. -/
theorem ldmLoadsTheWord : Obligations.LdmLoadsTheWord :=
  fun _ _ hx ha => exec_wrote (i := .ldm _) hx nofun (effect_ldm_of_lt ha)

/-- Settles O43: phase X of `stm` writes memory alone, so phase L reads `R[dst]` as stored and R15 is still in
the own slot at phase P. -/
theorem stmStoresTheWord : Obligations.StmStoresTheWord := by
  rintro f s ⟨hsorted, -⟩ hx ha
  refine ⟨_, exec_of_effect_normal (i := .stm f) hx (effect_stm_of_lt ha), ?word, ?otherWords, ?bytes,
    ?cv, ?pc, ?registers, ?callStack, ?status, ?code⟩
  case word => simp [Memory.readWord_writeWord hsorted]
  case otherWords =>
    intro a hne
    simp [Memory.readWord_writeWord hsorted, hne]
  case bytes =>
    intro b hb
    simp [Memory.readByte_writeWord_of_ne hsorted _ _ hb]
  case cv => simp [State.latch_cv, Instr.fields, Instr.op, Opcode.mode]
  case pc => simp
  case registers =>
    intro r hr
    simp [hr]
  case callStack | status | code => simp

end Sys2Proof.Claims
end

section
/-! Proofs about the branching instructions (spec/43_branching.md): what an executed `call` or `ret` leaves, as
one jump with another call stack, and the two in sequence. -/

namespace Sys2Proof.Machine

open Claims

/-! ### The state with another call stack -/

@[simp] theorem State.reg_setCallStack (cs : List Word) (s : State) (r : Reg) :
    (s.setCallStack cs).reg r = s.reg r := rfl
@[simp] theorem State.setCallStack_cv (cs : List Word) (s : State) : (s.setCallStack cs).cv = s.cv := rfl
@[simp] theorem State.setCallStack_callStack (cs : List Word) (s : State) :
    (s.setCallStack cs).callStack = cs := rfl
@[simp] theorem State.setCallStack_status (cs : List Word) (s : State) :
    (s.setCallStack cs).status = s.status := rfl
@[simp] theorem State.setCallStack_mem (cs : List Word) (s : State) :
    (s.setCallStack cs).mem = s.mem := rfl
@[simp] theorem State.setCallStack_code (cs : List Word) (s : State) :
    (s.setCallStack cs).code = s.code := rfl

/-! ### The jump -/

/-- What an executed `call` or `ret` that ends normally leaves: the call stack `cs`, R15 at `v` or past the own
slot, `cv` cleared, and all else as in `s`. -/
def Jumped (cs : List Word) (v : Word) (s t : State) : Prop :=
  t.callStack = cs ∧
    t.reg 15 = slotAfter (s.reg 15) v ∧ (∀ r, r ≠ 15 → t.reg r = s.reg r) ∧
    t.cv = 0 ∧ t.status = s.status ∧ t.mem = s.mem ∧ t.code = s.code

section
variable {s : State}

/-- Phase L passes mode Branching by, and phase P moves R15 on only from the own slot. -/
theorem exec_jumped {i : Instr} {cs : List Word} {v : Word} (hx : Executes i.fields.cond s.cv)
    (hm : i.op.mode = .branching)
    (h : effect i s.clearCv = .normal ((s.clearCv.setCallStack cs).setReg 15 v)) :
    ∃ t, exec i s = .next t ∧ Jumped cs v s t := by
  refine ⟨_, exec_of_effect_normal hx h, ?callStack, ?pc, ?registers, ?cv, ?status, ?mem, ?code⟩
  case pc => simp [slotAfter]
  case registers =>
    intro r hr
    simp [hr]
  case cv => simp [State.latch_cv, hm]
  case callStack | status | mem | code => simp

theorem exec_call_jumped {f : Fields} (hx : Executes f.cond s.cv)
    (hroom : s.callStack.length < Config.callStackMax) :
    ∃ t, exec (.call f) s = .next t ∧ Jumped ((s.reg 15 + 1) :: s.callStack) f.value s t := by
  refine exec_jumped (i := .call f) hx rfl ?_
  rw [effect, effectCall_eq, State.clearCv_callStack, if_neg (Nat.not_le.2 hroom)]; rfl

theorem exec_ret_jumped {f : Fields} {v : Word} {rest : List Word} (hx : Executes f.cond s.cv)
    (hcs : s.callStack = v :: rest) :
    ∃ t, exec (.ret f) s = .next t ∧ Jumped rest v s t :=
  exec_jumped (i := .ret f) hx rfl (effectRet_cons (s := s.clearCv) hcs)

end

end Sys2Proof.Machine

namespace Sys2Proof.Claims

open Machine

/-- Settles O46: with room on the call stack phase X of `call` is a push and a write of R15. -/
theorem callPushesTheReturnSlotAndJumps : Obligations.CallPushesTheReturnSlotAndJumps :=
  fun _ _ hx _ hroom => exec_call_jumped hx hroom

/-- Settles O48: with an entry to pop phase X of `ret` is a write of R15 with that entry. -/
theorem retPopsTheMostRecentSlot : Obligations.RetPopsTheMostRecentSlot :=
  fun _ _ _ _ hx hcs => exec_ret_jumped hx hcs

/-- Settles O50: the `ret` pops the slot the `call` pushed, and in another slot it does not fall through. -/
theorem retReturnsToTheSlotAfterTheCall : Obligations.RetReturnsToTheSlotAfterTheCall := by
  intro f g s t u hx hroom hcall hcs hxg hne
  obtain ⟨_, ht, hpushed, -⟩ := exec_call_jumped hx hroom
  cases hcall.symm.trans ht
  obtain ⟨r, hr, hpopped, hpc, -⟩ := exec_ret_jumped hxg (hcs.trans hpushed)
  exact ⟨r, hr, hpc.trans (if_neg hne), hpopped⟩

end Sys2Proof.Claims
end

section
/-! Proofs about the pseudo-instructions (spec/44_pseudo_instructions.md): what the two instructions of `push`
and the two of `pop` leave, and `push` followed by `pop`. -/

namespace Sys2Proof.Machine

open Claims

/-! ### The stack pointer's moves -/

/-- The first instruction of `push`. -/
theorem exec_sub_sp (s : State) :
    ∃ t, exec (.sub (plainFields spReg spReg (.imm 1))) s = .next t ∧
      Wrote (plainFields spReg spReg (.imm 1)) s (s.reg 13 - 1) t :=
  exec_make_wrote (op := .sub) (g := aluSub) nofun (fun _ => rfl) trivial

/-- The second instruction of `pop`. -/
theorem exec_add_sp (s : State) :
    ∃ t, exec (.add (plainFields spReg spReg (.imm 1))) s = .next t ∧
      Wrote (plainFields spReg spReg (.imm 1)) s (s.reg 13 + 1) t :=
  exec_make_wrote (op := .add) (g := aluAdd) nofun (fun _ => rfl) trivial

/-! ### The two instructions of `push` -/

/-- The word `push rD` stores: R13 is read after its decrement, R15 in the second slot
(spec/44_pseudo_instructions.md R190, spec/10_state.md R28). -/
def pushedWord (d : Reg) (s : State) : Word :=
  if d = 13 then s.reg 13 - 1 else if d = 15 then s.reg 15 + 1 else s.reg d

/-- What `push rD` leaves when its two instructions have completed. -/
structure Pushed (d : Reg) (s u : State) : Prop where
  sp         : u.reg 13 = s.reg 13 - 1
  pc         : u.reg 15 = s.reg 15 + 2
  word       : u.mem.readWord (s.reg 13 - 1).toNat = pushedWord d s
  otherWords : ∀ a, a ≠ (s.reg 13 - 1).toNat → u.mem.readWord a = s.mem.readWord a
  others     : ∀ r, r ≠ 13 → r ≠ 15 → u.reg r = s.reg r
  cv         : u.cv = 0
  callStack  : u.callStack = s.callStack
  status     : u.status = s.status

/-- The register `stm` reads after the decrement holds the pushed word. -/
theorem reg_eq_pushedWord {s t : State} (h : Wrote (plainFields spReg spReg (.imm 1)) s (s.reg 13 - 1) t)
    (d : Reg) : t.reg d = pushedWord d s := by
  obtain ⟨hsp, hpc⟩ := h.result (by decide)
  rw [pushedWord]
  split
  · next hd => exact (congrArg t.reg hd).trans hsp
  next h13 =>
    split
    · next hd => exact (congrArg t.reg hd).trans hpc
    · next h15 => exact h.others d h13 h15

/-- The store addresses through R13 as the decrement left it, and that address is in range. -/
theorem exec_push (d : Reg) {s : State} (hmem : s.mem.wf)
    (hrange : (s.reg 13 - 1).toNat < Config.stackSize) :
    ∃ t u, exec (.sub (plainFields spReg spReg (.imm 1))) s = .next t ∧
      exec (.stm (plainFields d spReg (.reg 0))) t = .next u ∧ Pushed d s u := by
  obtain ⟨t, ht, hw⟩ := exec_sub_sp s
  obtain ⟨hsp, hpc⟩ := hw.result (by decide)
  have haddr : soleSource t (plainFields d spReg (.reg 0)) = s.reg 13 - 1 := hsp
  obtain ⟨u, hu, hword, hwords, -, hcv, hupc, hreg, hcs, hstatus, -⟩ :=
    stmStoresTheWord (plainFields d spReg (.reg 0)) t (hw.mem ▸ hmem) trivial (haddr ▸ hrange)
  rw [haddr] at hword hwords
  refine ⟨t, u, ht, hu, ?_⟩
  constructor
  case sp => exact (hreg 13 (by decide)).trans hsp
  case pc => rw [hupc, hpc, add_assoc]; rfl
  case word => exact hword.trans (reg_eq_pushedWord hw d)
  case otherWords => exact fun a ha => (hwords a ha).trans (by rw [hw.mem])
  case others => exact fun r h13 h15 => (hreg r h15).trans (hw.others r h13 h15)
  case cv => exact hcv
  case callStack => exact hcs.trans hw.callStack
  case status => exact hstatus.trans hw.status

/-! ### The two instructions of `pop` -/

/-- What `pop rD` leaves, for D other than 13 and 15, when its two instructions have completed
(spec/44_pseudo_instructions.md R191). -/
structure Popped (d : Reg) (s u : State) : Prop where
  result    : u.reg d = s.mem.readWord (s.reg 13).toNat
  sp        : u.reg 13 = s.reg 13 + 1
  pc        : u.reg 15 = s.reg 15 + 2
  others    : ∀ r, r ≠ d → r ≠ 13 → r ≠ 15 → u.reg r = s.reg r
  cv        : u.cv = 0
  callStack : u.callStack = s.callStack
  status    : u.status = s.status

/-- The load leaves R13, and the increment leaves the register loaded. -/
theorem exec_pop {d : Reg} {s : State} (h13 : d ≠ 13) (h15 : d ≠ 15)
    (hrange : (s.reg 13).toNat < Config.stackSize) :
    ∃ t u, exec (.ldm (plainFields d spReg (.reg 0))) s = .next t ∧
      exec (.add (plainFields spReg spReg (.imm 1))) t = .next u ∧ Popped d s u := by
  obtain ⟨t, ht, hload⟩ := ldmLoadsTheWord (plainFields d spReg (.reg 0)) s trivial hrange
  obtain ⟨hd, hpc⟩ := hload.result h15
  obtain ⟨u, hu, hadd⟩ := exec_add_sp t
  obtain ⟨husp, hupc⟩ := hadd.result (by decide)
  have hsp : t.reg 13 = s.reg 13 := hload.others 13 h13.symm (by decide)
  refine ⟨t, u, ht, hu, ?_⟩
  constructor
  case result => exact (hadd.others d h13 h15).trans hd
  case sp => exact husp.trans (by rw [hsp])
  case pc => rw [hupc, hpc, add_assoc]; rfl
  case others => exact fun r hrd hr13 hr15 => (hadd.others r hr13 hr15).trans (hload.others r hrd hr15)
  case cv => exact hadd.cv
  case callStack => exact hadd.callStack.trans hload.callStack
  case status => exact hadd.status.trans hload.status

end Sys2Proof.Machine

namespace Sys2Proof.Claims

open Machine

/-- Settles O51: the decrement writes no memory, and the store after it writes no register but R15. -/
theorem pushStoresBelowTheStackPointer : Obligations.PushStoresBelowTheStackPointer := by
  intro d s hmem hrange
  obtain ⟨t, u, ht, hu, hp⟩ := exec_push d hmem hrange
  exact ⟨_, _, t, u, rfl, ht, hu, hp.sp, hp.pc, hp.word, hp.otherWords, hp.others, hp.cv, hp.status⟩

/-- Settles O52: `pop` loads from the address `push` stored at, and its increment undoes the decrement. -/
theorem pushThenPopMovesAndRestoresTheStackPointer :
    Obligations.PushThenPopMovesAndRestoresTheStackPointer := by
  intro x y s hmem hx13 hx15 hy13 hy15 hrange
  obtain ⟨t, u, ht, hu, hpush⟩ := exec_push x hmem hrange
  obtain ⟨v, z, hv, hz, hpop⟩ := exec_pop hy13 hy15 (hpush.sp.symm ▸ hrange)
  have hsp : z.reg 13 = s.reg 13 := by rw [hpop.sp, hpush.sp, sub_add_cancel]
  refine ⟨_, _, _, _, t, u, v, z, rfl, rfl, ht, hu, hv, hz, ?moved, hsp, ?pc, ?others, hpop.cv,
    hpop.callStack.trans hpush.callStack, hpop.status.trans hpush.status⟩
  case moved =>
    rw [hpop.result, hpush.sp, hpush.word, pushedWord, if_neg hx13, if_neg hx15]
  case pc => rw [hpop.pc, hpush.pc, add_assoc]; rfl
  case others =>
    intro r hry hr15
    by_cases hr13 : r = 13
    · exact hr13 ▸ hsp
    · rw [hpop.others r hry hr13 hr15, hpush.others r hr13 hr15]

end Sys2Proof.Claims
end

section
/-! Proofs about the ends of a run (spec/60_exceptions.md): which instruction raises or halts, and on what
cause. -/

namespace Sys2Proof.Machine

open Claims

/-- An instruction leaves the status unless it executes and its phase X ends in an error or the halt: the other
phases do not write the status, nor does a phase X that ends normally. -/
theorem exec_status_ne {i : Instr} {s t : State} (h : exec i s = .next t) (hne : t.status ≠ s.status) :
    Executes i.fields.cond s.cv ∧
      ((∃ e, effect i s.clearCv = .raised e ∧ t = s.clearCv.raise e) ∨
        effect i s.clearCv = .haltedRet ∧ t = s.clearCv.haltRet) := by
  rcases exec_cases h with ⟨-, rfl⟩ | ⟨hs, ⟨u, hu, rfl⟩ | hend⟩
  · simp at hne
  · obtain ⟨hstatus, -⟩ := effect_normal hu
    simp [hstatus] at hne
  · exact ⟨skips_eq_false_iff.1 hs, hend⟩

end Sys2Proof.Machine

namespace Sys2Proof.Claims

open Machine

/-- Settles O24: the status changes only by the error or the halt of phase X, and the clear of phase C leaves
the operands and the call stack that phase X tests. -/
theorem onlyTheNamedCausesEndTheRun : Obligations.OnlyTheNamedCausesEndTheRun := by
  intro i s t h hne
  obtain ⟨hx, ⟨e, he, rfl⟩ | ⟨hret, rfl⟩⟩ := exec_status_ne h hne
  · refine ⟨hx, ?_⟩
    have hcause := effect_raised he
    simp only [State.src1_eq_soleSource, State.src2_eq_secondSource] at hcause
    rcases hcause with ⟨f, hi, hzero, rfl⟩ | ⟨f, hi, hrange, rfl⟩ | ⟨f, hi, hrange, rfl⟩ |
      ⟨f, hi, hfull, rfl⟩
    · exact .inl ⟨f, hi, hzero, rfl⟩
    · exact .inr (.inl ⟨f, hi, hrange, rfl⟩)
    · exact .inr (.inr (.inl ⟨f, hi, hrange, rfl⟩))
    · exact .inr (.inr (.inr (.inl ⟨f, hi, hfull, rfl⟩)))
  · obtain ⟨⟨f, hi⟩, hempty⟩ := effect_haltedRet hret
    exact ⟨hx, .inr (.inr (.inr (.inr ⟨f, hi, hempty, rfl⟩)))⟩

end Sys2Proof.Claims
end

section
/-! Proofs about what every run rests on: the state after reset, the step at each status and in each kind of slot
(spec/40_step_and_condition.md), the reserved encodings (spec/30_encoding.md) and the instructions that end the
run (spec/60_exceptions.md). -/

namespace Sys2Proof.Machine

open Claims

/-! ### The state after reset -/

theorem State.reset_memRead {a : Word} (ha : a.toNat < Config.stackSize) : State.reset.memRead a = some 0 := by
  rw [State.memRead_eq, if_pos ha]
  exact congrArg some (Memory.readWord_nil _)

/-! ### The reserved encodings -/

theorem getLsbD_eq_false_iff_bits (w : Word) (k : Nat) : w.getLsbD k = false ↔ bits w k 1 = 0 := by
  rw [← Bool.not_eq_true, getLsbD_iff_bits]
  exact Nat.mod_two_ne_one

theorem extractLsb'_eq_iff_bits (w : Word) (lo : Nat) {n : Nat} (x : BitVec n) :
    w.extractLsb' lo n = x ↔ bits w lo n = x.toNat := by
  rw [← toNat_extractLsb', BitVec.toNat_inj]

/-- A word that is no instruction, by the arithmetic of its fields. -/
theorem decodeWord_error_iff_bits {w : Word} :
    (∃ e, decodeWord w = .error e) ↔ 6 < bits w 28 4 ∨ bits w 20 4 = 14 ∧ bits w 24 1 = 0 := by
  rw [decodeWord_error_iff, toNat_extractLsb', extractLsb'_eq_iff_bits, getLsbD_eq_false_iff_bits]
  rfl

/-! ### The step -/

theorem step_of_faulted {s : State} {e : RunError} (hs : s.status = .faulted e) :
    step s = .fault (.trapped e) := by
  simp [step, fetchInstr, hs]

theorem step_of_halted {s : State} (hs : s.status = .haltedEnd ∨ s.status = .haltedRet) :
    step s = .refused .runOver := by
  rcases hs with hs | hs <;> simp [step, fetchInstr, hs]

theorem step_of_broken_code {s : State} (hs : s.status = .running) (hl : s.code.length % 4 ≠ 0) :
    step s = .refused .codeLength := by
  simp [step, fetchInstr, hs, hl]

/-- The three kinds of slot: past the end of the code, an instruction, a reserved encoding. -/
theorem step_next {s : State} (hs : s.status = .running) (hl : s.code.length % 4 = 0) :
    ∃ t, step s = .next t := by
  by_cases hn : (s.reg 15).toNat < s.nslot
  · cases hd : decodeWord (codeWord s.code (s.reg 15).toNat) with
    | ok i =>
      obtain ⟨t, ht⟩ := exec_next i s
      exact ⟨t, (step_of_decode hs hl hn hd).trans ht⟩
    | error e => exact ⟨_, step_of_invalid hs hl hn hd⟩
  · exact ⟨_, step_of_end hs hl (Nat.not_lt.1 hn)⟩

/-- A reserved encoding in the slot R15 names. -/
theorem step_of_atSlot_invalid {s : State} {w : Word} {pre post : List Byte} (h : AtSlot s w pre post)
    {e : DecodeError} (hd : decodeWord w = .error e) : step s = .next (s.raise (.invalidOpcode w)) := by
  have hw := codeWord_of_atSlot h
  have hstep := step_of_invalid h.running h.whole (lt_nslot_of_atSlot h) (hw.symm ▸ hd)
  rwa [hw] at hstep

/-- Where the code is whole slots, counting slots is comparing byte positions (spec/20_memory.md R55). -/
theorem State.nslot_le_iff {s : State} (hl : s.code.length % 4 = 0) (n : Nat) :
    s.nslot ≤ n ↔ s.code.length ≤ 4 * n := by
  rw [State.nslot]
  omega

/-! ### The instructions that end the run -/

/-- No instruction reaches the end of the code: only phase F does. -/
theorem exec_status_ne_haltedEnd {i : Instr} {s t : State} (hs : s.status = .running)
    (h : exec i s = .next t) : t.status ≠ .haltedEnd := by
  intro hend
  obtain ⟨-, ⟨e, -, rfl⟩ | ⟨-, rfl⟩⟩ := exec_status_ne h (by rw [hend, hs]; nofun) <;> cases hend

section
variable {i : Instr} {s : State} (hx : Executes i.fields.cond s.cv)
include hx

/-- An executed instruction whose phase X ends in an error has written nothing but the clear of phase C. -/
theorem exec_of_effect_raised {e : RunError} (h : effect i s.clearCv = .raised e) :
    exec i s = .next { s with cv := 0, status := .faulted e } := by
  rw [exec_of_not_skips (skips_eq_false_iff.2 hx), h]; rfl

/-- An executed instruction whose phase X halts has written nothing but the clear of phase C. -/
theorem exec_of_effect_haltedRet (h : effect i s.clearCv = .haltedRet) :
    exec i s = .next { s with cv := 0, status := .haltedRet } := by
  rw [exec_of_not_skips (skips_eq_false_iff.2 hx), h]; rfl

end

section
variable {f : Fields} {s : State}

theorem effect_div_of_zero (hz : secondSource s f = 0) :
    effect (.div f) s.clearCv = .raised (.divisionByZero .div) := by
  rw [effect, effectDiv_eq, State.src2_clearCv, State.src2_eq_secondSource, if_pos hz]

theorem effect_ldm_of_le (ha : Config.stackSize ≤ (soleSource s f).toNat) :
    effect (.ldm f) s.clearCv = .raised (.memoryOutOfRange .ldm (soleSource s f)) := by
  rw [effect, effectLdm_eq, State.src1_clearCv, State.src1_eq_soleSource, if_neg (Nat.not_lt.2 ha)]

theorem effect_stm_of_le (ha : Config.stackSize ≤ (soleSource s f).toNat) :
    effect (.stm f) s.clearCv = .raised (.memoryOutOfRange .stm (soleSource s f)) := by
  rw [effect, effectStm_eq, State.src1_clearCv, State.src1_eq_soleSource, if_neg (Nat.not_lt.2 ha)]

theorem effect_call_of_full (hfull : Config.callStackMax ≤ s.callStack.length) :
    effect (.call f) s.clearCv = .raised (.callStackOverflow .call) := by
  rw [effect, effectCall_eq, State.clearCv_callStack, if_pos hfull]

end

end Sys2Proof.Machine

namespace Sys2Proof.Claims

open Machine

/-- Settles O1: the sixteen registers are evaluated, and a memory with no cell reads as 0. -/
theorem resetStateHasTheTableValues : Obligations.ResetStateHasTheTableValues :=
  ⟨rfl, rfl, by decide, rfl, rfl, rfl, rfl, fun _ ha => State.reset_memRead ha⟩

/-- Settles O28: after reset there is no cell, no byte of code and no entry that could break it. -/
theorem resetStateMeetsTheInvariant : Obligations.ResetStateMeetsTheInvariant where
  memory := State.reset_mem_wf
  slots := rfl
  callDepth := Nat.zero_le _
  status := rfl

/-- Settles O5: the status is looked at before the code is. -/
theorem endedRunHasNoNextStep : Obligations.EndedRunHasNoNextStep :=
  fun _ => ⟨fun _ => step_of_faulted, step_of_halted⟩

/-- Settles O6: the length is looked at before R15 is. -/
theorem brokenCodeLengthIsRefused : Obligations.BrokenCodeLengthIsRefused :=
  fun _ => step_of_broken_code

/-- Settles O7: phase F ends the run, phase D raises, or `exec` answers, and each is a next state. -/
theorem runningMachineAlwaysSteps : Obligations.RunningMachineAlwaysSteps :=
  fun _ => step_next

/-- Settles O3: phase F alone gives the status `HaltedEnd`, and only at or past the end of the code. -/
theorem endOfCodeHaltsAndChangesNothingElse : Obligations.EndOfCodeHaltsAndChangesNothingElse := by
  intro s hs hl
  refine ⟨fun hend => step_of_end hs hl ((State.nslot_le_iff hl _).2 hend), fun hlt t ht => ?_⟩
  obtain ⟨-, -, ⟨hend, -⟩ | ⟨-, ⟨i, -, hi⟩ | ⟨e, -, rfl⟩⟩⟩ := step_cases ht
  · exact absurd ((State.nslot_le_iff hl _).1 hend) (Nat.not_le.2 hlt)
  · exact exec_status_ne_haltedEnd hs hi
  · exact nofun

/-- Settles O10: the two reasons the decoder rejects a word for, with its fields read as numbers. -/
theorem wordIsInvalidExactlyWhenReserved : Obligations.WordIsInvalidExactlyWhenReserved :=
  fun _ => decodeWord_error_iff_bits

/-- Settles O4: the decoder rejects the word, and phase D raises before phase C reads the condition. -/
theorem reservedEncodingRaisesInvalidOpcode : Obligations.ReservedEncodingRaisesInvalidOpcode := by
  intro s w pre post hs hreserved
  obtain ⟨e, he⟩ := decodeWord_error_iff_bits.2 hreserved
  exact step_of_atSlot_invalid hs he

/-- Settles O17: the decoder evaluated on each of the words. -/
theorem writtenOutWordsDecode : Obligations.WrittenOutWordsDecode := by
  unfold Obligations.WrittenOutWordsDecode
  decide

/-- Settles O19: the evaluator's tests are the complements of the table's, condition by condition. -/
theorem conditionEvaluatorFollowsTheTable : Obligations.ConditionEvaluatorFollowsTheTable :=
  fun _ _ => skips_eq_false_iff

/-- Settles O25: the status changes only by the error or the halt of phase X, and neither carries a state. -/
theorem instructionThatEndsTheRunWritesNothing : Obligations.InstructionThatEndsTheRunWritesNothing := by
  intro i s t h hne
  obtain ⟨-, ⟨e, -, rfl⟩ | ⟨-, rfl⟩⟩ := exec_status_ne h hne
  · rfl
  · rfl

/-- Settles O40: the zero is found before the quotient is written. -/
theorem divByZeroRaisesItsError : Obligations.DivByZeroRaisesItsError :=
  fun f _ hx hz => exec_of_effect_raised (i := .div f) hx (effect_div_of_zero hz)

/-- Settles O44: both transfers check the address before the access is made. -/
theorem transferOutOfRangeRaisesItsError : Obligations.TransferOutOfRangeRaisesItsError :=
  fun f _ hx ha => ⟨exec_of_effect_raised (i := .ldm f) hx (effect_ldm_of_le ha),
    exec_of_effect_raised (i := .stm f) hx (effect_stm_of_le ha)⟩

/-- Settles O47: the depth is checked before the push and the jump. -/
theorem callOnAFullCallStackRaisesItsError : Obligations.CallOnAFullCallStackRaisesItsError :=
  fun f _ hx hfull => exec_of_effect_raised (i := .call f) hx (effect_call_of_full hfull)

/-- Settles O49: with no entry to pop, phase X of `ret` is the halt. -/
theorem retOnAnEmptyCallStackHalts : Obligations.RetOnAnEmptyCallStackHalts :=
  fun f s hx hempty => exec_of_effect_haltedRet (i := .ret f) hx (effectRet_nil (s := s.clearCv) hempty)

end Sys2Proof.Claims
end

section
/-! Proofs about the host interface once `exec` has been called (spec/70_reset_and_hazards.md R236): what the
accepted call leaves, what is refused from then on, and what the ended run answers. -/

namespace Sys2Proof.Machine

/-! ### The answer of a run -/

theorem runResult_of_running {s : State} (h : s.status = .running) : runResult s = none := by
  simp [runResult, h]

theorem runResult_eq_ok_iff {s : State} :
    runResult s = some (.ok ()) ↔ s.status = .haltedEnd ∨ s.status = .haltedRet := by
  unfold runResult
  cases s.status <;> simp

theorem runResult_eq_error_iff {s : State} {e : RunError} :
    runResult s = some (.error e) ↔ s.status = .faulted e := by
  unfold runResult
  cases s.status <;> simp

/-! ### The host after the call of `exec` -/

/-- An accepted `exec` has marked the machine as called, and answers what the state it leaves says. -/
theorem hostExec_eq_ok {fuel : Nat} {code : List Byte} {vm t : Vm}
    {answer : Option (Except RunError Unit)} (h : hostExec fuel code vm = .ok (t, answer)) :
    t.execCalled = true ∧ answer = runResult t.state := by
  unfold hostExec hostLoad at h
  split_ifs at h
  cases h
  exact ⟨rfl, rfl⟩

section
variable {vm : Vm} (hc : vm.execCalled = true)
include hc

theorem hostSet_of_execCalled (loc v : Word) :
    hostSet .reg loc v vm = .error .wrongTime ∧ hostSet .mem loc v vm = .error .wrongTime := by
  simp [hostSet, Vm.beforeExec, hc]

theorem hostExec_of_execCalled (fuel : Nat) (code : List Byte) :
    hostExec fuel code vm = .error .wrongTime := by
  simp [hostExec, hostLoad, Vm.beforeExec, hc]

theorem hostGet_of_running (hs : vm.state.status = .running) (loc : Word) :
    hostGet .reg loc vm = .error .wrongTime ∧ hostGet .mem loc vm = .error .wrongTime := by
  simp [hostGet, Vm.duringExec, hc, hs]

end

section
variable {vm : Vm} (hs : vm.state.status ≠ .running)
include hs

theorem hostGet_reg_of_ended (r : Reg) :
    hostGet .reg (BitVec.ofNat 32 r.val) vm = .ok (vm.state.reg r) := by
  have hr : (BitVec.ofNat 32 r.val).toNat = r.val := Nat.mod_eq_of_lt (by omega)
  simp [hostGet, Vm.duringExec, hs, hr]

theorem hostGet_mem_of_ended {a : Word} (ha : a.toNat < Config.stackSize) :
    hostGet .mem a vm = .ok (vm.state.mem.readWord a.toNat) := by
  simp [hostGet, Vm.duringExec, hs, State.memRead_eq, ha]

end

end Sys2Proof.Machine

namespace Sys2Proof.Claims

open Machine

/-- Settles O55: the mark of the call refuses `set` and `exec`, the mark with the status Running refuses `get`,
and the answer is read off the status. -/
theorem execHappensOnceAndOwnsTheMachine : Obligations.ExecHappensOnceAndOwnsTheMachine := by
  intro fuel code vm t answer h
  obtain ⟨hc, rfl⟩ := hostExec_eq_ok h
  refine ⟨hostSet_of_execCalled hc, hostExec_of_execCalled hc, fun hs => ?running, fun hs => ?ended⟩
  case running => exact ⟨runResult_of_running hs, hostGet_of_running hc hs⟩
  case ended =>
    exact ⟨runResult_eq_ok_iff, fun _ => runResult_eq_error_iff, hostGet_reg_of_ended hs,
      fun _ ha => hostGet_mem_of_ended hs ha⟩

end Sys2Proof.Claims
end
